-- ==== Sys2Proof/Word.lean ====
section
/-! DEFINITION. The word types of the machine: bytes, 16-bit words, instruction fields and register indices. -/

namespace Sys2Proof

/-- A byte: a memory cell, a general register or a timer (spec/10_state.md R21, R27, R28, R34). -/
abbrev Byte := BitVec 8

/-- A 16-bit value: an instruction word, `pc`, the index register or a return address
(spec/10_state.md R23, R25, R26; spec/30_encoding.md R70). -/
abbrev Word := BitVec 16

/-- The field `nnn` of an instruction word: a 12-bit byte address (spec/00_scope.md R9). -/
abbrev Addr := BitVec 12

/-- The field `n` of an instruction word: a 4-bit constant (spec/00_scope.md R9). -/
abbrev Nibble := BitVec 4

/-- The index of a general register, `0` to `15`; every value is legal (spec/10_state.md R21). -/
abbrev Reg := Fin 16

end Sys2Proof
end

