-- ==== Sys2Proof/Syntax.lean ====
section
/-! DEFINITION. The instructions: one constructor for each of the 34 rows of spec/opcode_table.json. -/

namespace Sys2Proof

/-- An instruction with the fields of its format (spec/30_encoding.md R73, R75). Register fields are
indices; `n`, `nn` and `nnn` are unsigned constants (R72). -/
inductive Instr where
  /-- `00E0`, R160. -/
  | cls
  /-- `00EE`, R100. -/
  | ret
  /-- `1nnn`, R101. -/
  | jp (nnn : Addr)
  /-- `2nnn`, R102. -/
  | call (nnn : Addr)
  /-- `3xnn`, R103. -/
  | seImm (x : Reg) (nn : Byte)
  /-- `4xnn`, R104. -/
  | sneImm (x : Reg) (nn : Byte)
  /-- `5xy0`, R105. -/
  | seReg (x y : Reg)
  /-- `6xnn`, R120. -/
  | ldImm (x : Reg) (nn : Byte)
  /-- `7xnn`, R121. -/
  | addImm (x : Reg) (nn : Byte)
  /-- `8xy0`, R122. -/
  | ldReg (x y : Reg)
  /-- `8xy1`, R123. -/
  | orReg (x y : Reg)
  /-- `8xy2`, R124. -/
  | andReg (x y : Reg)
  /-- `8xy3`, R125. -/
  | xorReg (x y : Reg)
  /-- `8xy4`, R126. -/
  | addReg (x y : Reg)
  /-- `8xy5`, R127. -/
  | sub (x y : Reg)
  /-- `8xy6`, R128. -/
  | shr (x y : Reg)
  /-- `8xy7`, R129. -/
  | subn (x y : Reg)
  /-- `8xyE`, R130. -/
  | shl (x y : Reg)
  /-- `9xy0`, R106. -/
  | sneReg (x y : Reg)
  /-- `Annn`, R140. -/
  | ldI (nnn : Addr)
  /-- `Bxnn`, R108. The field `x` is the top nibble of `nnn` (R72), which `WellFormed` checks. -/
  | jpVx (x : Reg) (nnn : Addr)
  /-- `Cxnn`, R131. -/
  | rnd (x : Reg) (nn : Byte)
  /-- `Dxyn`, R161. -/
  | drw (x y : Reg) (n : Nibble)
  /-- `Ex9E`, R170. -/
  | skp (x : Reg)
  /-- `ExA1`, R171. -/
  | sknp (x : Reg)
  /-- `Fx07`, R173. -/
  | ldVxDt (x : Reg)
  /-- `Fx0A`, R172. -/
  | ldVxK (x : Reg)
  /-- `Fx15`, R174. -/
  | ldDtVx (x : Reg)
  /-- `Fx18`, R175. -/
  | ldStVx (x : Reg)
  /-- `Fx1E`, R141. -/
  | addI (x : Reg)
  /-- `Fx29`, R142. -/
  | ldF (x : Reg)
  /-- `Fx33`, R143. -/
  | ldB (x : Reg)
  /-- `Fx55`, R144. -/
  | stRegs (x : Reg)
  /-- `Fx65`, R145. -/
  | ldRegs (x : Reg)
  deriving DecidableEq, Repr

end Sys2Proof
end

