-- ==== Sys2Proof/WellFormed.lean ====
section
/-! DEFINITION. Which terms of `Instr` stand for an instruction word. -/

namespace Sys2Proof

/-- An instruction term is well formed when some word encodes it. Every field value of every format is
legal (spec/30_encoding.md R82); the one check is that the register of `Bxnn` is the one `nnn[11:8]`
names (R72, R84). -/
def WellFormed : Instr → Bool
  | .jpVx x nnn => x.val == nnn.toNat / 256
  | .cls | .ret | .jp _ | .call _ | .seImm _ _ | .sneImm _ _ | .seReg _ _ | .ldImm _ _
  | .addImm _ _ | .ldReg _ _ | .orReg _ _ | .andReg _ _ | .xorReg _ _ | .addReg _ _ | .sub _ _
  | .shr _ _ | .subn _ _ | .shl _ _ | .sneReg _ _ | .ldI _ | .rnd _ _ | .drw _ _ _ | .skp _
  | .sknp _ | .ldVxDt _ | .ldVxK _ | .ldDtVx _ | .ldStVx _ | .addI _ | .ldF _ | .ldB _
  | .stRegs _ | .ldRegs _ => true

end Sys2Proof
end

