-- ==== Sys2Proof/Decode.lean ====
section
/-! DEFINITION. The decoder, total on all words and byte sequences, and the encoder. -/

namespace Sys2Proof

/-- `n1 = instr[15:12]`, the family selector (spec/30_encoding.md R71). -/
def fieldN1 (w : Word) : Nibble := w.extractLsb' 12 4

/-- `x = n2 = instr[11:8]` as a register index (R71, R72). -/
def fieldX (w : Word) : Reg := (w.extractLsb' 8 4).toFin

/-- `y = n3 = instr[7:4]` as a register index (R71, R72). -/
def fieldY (w : Word) : Reg := (w.extractLsb' 4 4).toFin

/-- `n = n4 = instr[3:0]` (R71). -/
def fieldN (w : Word) : Nibble := w.extractLsb' 0 4

/-- `nn = instr[7:0]` (R71). -/
def fieldNn (w : Word) : Byte := w.extractLsb' 0 8

/-- `nnn = instr[11:0]` (R71). -/
def fieldNnn (w : Word) : Addr := w.extractLsb' 0 12

/-- Why decoding refuses. -/
inductive DecodeReject where
  /-- The word matches no row of spec/30_encoding.md R75 (R81). -/
  | illegal (w : Word)
  /-- Fewer than two bytes were given (R70: every instruction is two bytes). -/
  | truncated
  deriving DecidableEq, Repr

/-- Family 0: secondary dispatch on the whole word (spec/30_encoding.md R76). -/
def decodeFamily0 (w : Word) : Except DecodeReject Instr :=
  match w.toNat with
  | 0x00E0 => .ok .cls
  | 0x00EE => .ok .ret
  | _ => .error (.illegal w)

/-- Families 5 and 9: `n4` must be 0 (spec/30_encoding.md R80). -/
def decodeXY0 (i : Instr) (w : Word) : Except DecodeReject Instr :=
  match (fieldN w).toNat with
  | 0 => .ok i
  | _ => .error (.illegal w)

/-- Family 8: secondary dispatch on `n4` (spec/30_encoding.md R77). -/
def decodeFamily8 (w : Word) : Except DecodeReject Instr :=
  match (fieldN w).toNat with
  | 0x0 => .ok (.ldReg (fieldX w) (fieldY w))
  | 0x1 => .ok (.orReg (fieldX w) (fieldY w))
  | 0x2 => .ok (.andReg (fieldX w) (fieldY w))
  | 0x3 => .ok (.xorReg (fieldX w) (fieldY w))
  | 0x4 => .ok (.addReg (fieldX w) (fieldY w))
  | 0x5 => .ok (.sub (fieldX w) (fieldY w))
  | 0x6 => .ok (.shr (fieldX w) (fieldY w))
  | 0x7 => .ok (.subn (fieldX w) (fieldY w))
  | 0xE => .ok (.shl (fieldX w) (fieldY w))
  | _ => .error (.illegal w)

/-- Family E: secondary dispatch on the low byte (spec/30_encoding.md R78). -/
def decodeFamilyE (w : Word) : Except DecodeReject Instr :=
  match (fieldNn w).toNat with
  | 0x9E => .ok (.skp (fieldX w))
  | 0xA1 => .ok (.sknp (fieldX w))
  | _ => .error (.illegal w)

/-- Family F: secondary dispatch on the low byte (spec/30_encoding.md R79). -/
def decodeFamilyF (w : Word) : Except DecodeReject Instr :=
  match (fieldNn w).toNat with
  | 0x07 => .ok (.ldVxDt (fieldX w))
  | 0x0A => .ok (.ldVxK (fieldX w))
  | 0x15 => .ok (.ldDtVx (fieldX w))
  | 0x18 => .ok (.ldStVx (fieldX w))
  | 0x1E => .ok (.addI (fieldX w))
  | 0x29 => .ok (.ldF (fieldX w))
  | 0x33 => .ok (.ldB (fieldX w))
  | 0x55 => .ok (.stRegs (fieldX w))
  | 0x65 => .ok (.ldRegs (fieldX w))
  | _ => .error (.illegal w)

/-- The decoder: primary dispatch on `n1` (spec/30_encoding.md R75, R86). Every word that matches no
row is refused as illegal (R81). The family selector has sixteen values, so the last arm is never
reached. -/
def decodeWord (w : Word) : Except DecodeReject Instr :=
  match (fieldN1 w).toNat with
  | 0x0 => decodeFamily0 w
  | 0x1 => .ok (.jp (fieldNnn w))
  | 0x2 => .ok (.call (fieldNnn w))
  | 0x3 => .ok (.seImm (fieldX w) (fieldNn w))
  | 0x4 => .ok (.sneImm (fieldX w) (fieldNn w))
  | 0x5 => decodeXY0 (.seReg (fieldX w) (fieldY w)) w
  | 0x6 => .ok (.ldImm (fieldX w) (fieldNn w))
  | 0x7 => .ok (.addImm (fieldX w) (fieldNn w))
  | 0x8 => decodeFamily8 w
  | 0x9 => decodeXY0 (.sneReg (fieldX w) (fieldY w)) w
  | 0xA => .ok (.ldI (fieldNnn w))
  | 0xB => .ok (.jpVx (fieldX w) (fieldNnn w))
  | 0xC => .ok (.rnd (fieldX w) (fieldNn w))
  | 0xD => .ok (.drw (fieldX w) (fieldY w) (fieldN w))
  | 0xE => decodeFamilyE w
  | 0xF => decodeFamilyF w
  | _ => .error (.illegal w)

/-- The instruction word of two bytes of memory, the byte at the lower address first: big-endian
(spec/20_memory.md R54). -/
def wordOfBytes (hi lo : Byte) : Word := hi ++ lo

/-- Decoding a byte sequence: the instruction and the bytes after it (spec/30_encoding.md R70). -/
def decode : List Byte → Except DecodeReject (Instr × List Byte)
  | hi :: lo :: rest =>
    match decodeWord (wordOfBytes hi lo) with
    | .ok i => .ok (i, rest)
    | .error e => .error e
  | _ => .error .truncated

/-- A register index as the nibble that encodes it. -/
def regBits (x : Reg) : Nibble := BitVec.ofFin x

/-- Formats `NNN` and `XNNN`: `op ‖ nnn` (spec/30_encoding.md R73). -/
def encodeNnn (op : Nibble) (nnn : Addr) : Word := op ++ nnn

/-- Formats `XNN` and `X`: `op ‖ x ‖ nn` (spec/30_encoding.md R73). -/
def encodeXnn (op : Nibble) (x : Reg) (nn : Byte) : Word := op ++ (regBits x ++ nn : Addr)

/-- Formats `XY` and `XYN`: `op ‖ x ‖ y ‖ n` (spec/30_encoding.md R73). -/
def encodeXyn (op : Nibble) (x y : Reg) (n : Nibble) : Word :=
  op ++ (regBits x ++ (regBits y ++ n : Byte) : Addr)

/-- The encoder: the word of an instruction, its row's fixed bits and its fields in their places
(spec/30_encoding.md R75, R83). For `Bxnn` the field `x` is part of `nnn` (R72). -/
def encode : Instr → Word
  | .cls => 0x00E0
  | .ret => 0x00EE
  | .jp nnn => encodeNnn 0x1 nnn
  | .call nnn => encodeNnn 0x2 nnn
  | .seImm x nn => encodeXnn 0x3 x nn
  | .sneImm x nn => encodeXnn 0x4 x nn
  | .seReg x y => encodeXyn 0x5 x y 0x0
  | .ldImm x nn => encodeXnn 0x6 x nn
  | .addImm x nn => encodeXnn 0x7 x nn
  | .ldReg x y => encodeXyn 0x8 x y 0x0
  | .orReg x y => encodeXyn 0x8 x y 0x1
  | .andReg x y => encodeXyn 0x8 x y 0x2
  | .xorReg x y => encodeXyn 0x8 x y 0x3
  | .addReg x y => encodeXyn 0x8 x y 0x4
  | .sub x y => encodeXyn 0x8 x y 0x5
  | .shr x y => encodeXyn 0x8 x y 0x6
  | .subn x y => encodeXyn 0x8 x y 0x7
  | .shl x y => encodeXyn 0x8 x y 0xE
  | .sneReg x y => encodeXyn 0x9 x y 0x0
  | .ldI nnn => encodeNnn 0xA nnn
  | .jpVx _ nnn => encodeNnn 0xB nnn
  | .rnd x nn => encodeXnn 0xC x nn
  | .drw x y n => encodeXyn 0xD x y n
  | .skp x => encodeXnn 0xE x 0x9E
  | .sknp x => encodeXnn 0xE x 0xA1
  | .ldVxDt x => encodeXnn 0xF x 0x07
  | .ldVxK x => encodeXnn 0xF x 0x0A
  | .ldDtVx x => encodeXnn 0xF x 0x15
  | .ldStVx x => encodeXnn 0xF x 0x18
  | .addI x => encodeXnn 0xF x 0x1E
  | .ldF x => encodeXnn 0xF x 0x29
  | .ldB x => encodeXnn 0xF x 0x33
  | .stRegs x => encodeXnn 0xF x 0x55
  | .ldRegs x => encodeXnn 0xF x 0x65

/-- The two bytes of a word as memory holds them, high byte first (spec/20_memory.md R54). -/
def bytesOfWord (w : Word) : List Byte := [w.extractLsb' 8 8, w.extractLsb' 0 8]

/-- The word whose low `nbits` bits are those of `w`, every bit above them 0. -/
def tableWord (nbits w : Nat) : Word := BitVec.ofNat 16 (w % 2 ^ nbits)

/-- The instruction the decoder reads from a row's word, its bits numbered as spec/opcode_table.json
numbers them. The word is laid out as memory holds it and given to the decoder. -/
def decodeTableWord (nbits w : Nat) : Option Instr :=
  match decode (bytesOfWord (tableWord nbits w)) with
  | .ok (i, _) => some i
  | .error _ => none

end Sys2Proof
end

