-- ==== Sys2Proof/Config.lean ====
section
/-! DEFINITION. The parameters of the block (spec/00_scope.md R5) and the free inputs of its steps. -/

namespace Sys2Proof.Config

/-- `MEM_SIZE`: bytes of memory (spec/00_scope.md R5). -/
def memSize : Nat := 4096

/-- `PROG_BASE`: the first byte of program space (spec/00_scope.md R5). -/
def progBase : Nat := 0x200

/-- `PROG_MAX`: the longest program image kept (spec/00_scope.md R5, spec/70_reset_and_hazards.md R233). -/
def progMax : Nat := 3584

/-- `FONT_BASE`: the first byte of the glyph table (spec/00_scope.md R5). -/
def fontBase : Nat := 0x50

/-- `STACK_DEPTH`: entries of the call stack (spec/00_scope.md R5). -/
def stackDepth : Nat := 16

/-- `PC_RESET` (spec/00_scope.md R5, spec/10_state.md R36). -/
def pcReset : Word := 0x0200

/-- The default value of the parameter `FONT`, the conventional glyph table
(spec/70_reset_and_hazards.md R232). `FONT` itself is an argument of `loadFont`: no meaning
of an instruction uses this table. -/
def defaultFont : Vector Byte 80 :=
  #v[0xF0, 0x90, 0x90, 0x90, 0xF0,  0x20, 0x60, 0x20, 0x20, 0x70,
     0xF0, 0x10, 0xF0, 0x80, 0xF0,  0xF0, 0x10, 0xF0, 0x10, 0xF0,
     0x90, 0x90, 0xF0, 0x10, 0x10,  0xF0, 0x80, 0xF0, 0x10, 0xF0,
     0xF0, 0x80, 0xF0, 0x90, 0xF0,  0xF0, 0x10, 0x20, 0x40, 0x40,
     0xF0, 0x90, 0xF0, 0x90, 0xF0,  0xF0, 0x90, 0xF0, 0x10, 0xF0,
     0xF0, 0x90, 0xF0, 0x90, 0x90,  0xE0, 0x90, 0xE0, 0x90, 0xE0,
     0xF0, 0x80, 0x80, 0x80, 0xF0,  0xE0, 0x90, 0x90, 0x90, 0xE0,
     0xF0, 0x80, 0xF0, 0x80, 0xF0,  0xF0, 0x80, 0xF0, 0x80, 0x80]

/-- The `keys` argument of the step after draw number `k`: a free input, chosen by the host at every
step (spec/10_state.md R30, spec/93_implementation_defined.md U8). Log entry 1. -/
opaque hostKeys : Nat → Vector Bool 16

/-- The `rnd` argument of the step after draw number `k`: a free input under no law
(spec/10_state.md R31, spec/93_implementation_defined.md U7). Log entry 1. -/
opaque hostRnd : Nat → Byte

end Sys2Proof.Config
end

