-- ==== Sys2Proof/Machine/State.lean ====
section
/-! DEFINITION. The state of the machine as plain data, its reset, and the ways a step can stop. -/

namespace Sys2Proof.Machine

/-- `Mem`: the bytes that differ from 0x00, which is what an unlisted address holds
(spec/10_state.md R34, R36: all 4096 bytes are 0x00 at reset). The canonical form is `Memory.wf`. -/
abbrev Memory := List Host.Cell

/-- `FB[y][x]`: 32 rows, top to bottom, of 64 pixels, left to right (spec/10_state.md R29). -/
abbrev FrameBuffer := Vector (Vector Bool 64) 32

/-- `keys[k]` is true when key `k` is down (spec/10_state.md R30). -/
abbrev Keypad := Vector Bool 16

/-- The complete state: the eight items of spec/10_state.md R20, and three fields of the model's own. -/
structure State where
  /-- `Mem`, 4096 bytes (R34). -/
  mem : Memory
  /-- `V[0]` to `V[15]` (R21); `V[15]` is VF (R22). -/
  v : Vector Byte 16
  /-- `pc` (R23). -/
  pc : Word
  /-- The index register `I` (R25). -/
  index : Word
  /-- The call stack, the last pushed entry first; its length is `sp` (R26). -/
  stack : List Word
  /-- The delay timer `DT` (R27). -/
  dt : Byte
  /-- The sound timer `ST` (R28). -/
  st : Byte
  /-- The framebuffer `FB` (R29). -/
  fb : FrameBuffer
  /-- MODEL's own: the `keys` argument of the step to come (R30). Log entry 1. -/
  keys : Keypad
  /-- MODEL's own: the `rnd` argument of the step to come (R31). Log entry 1. -/
  rnd : Byte
  /-- MODEL's own: how many pairs of step arguments have been drawn. Log entry 1. -/
  draws : Nat
  deriving DecidableEq, Repr

/-- The result `fault(code, epc, einstr, info)` of a step, the code being the constructor of `Fault`,
and the state the step leaves (spec/60_exceptions.md R200, R201, R207). -/
structure FaultReport where
  /-- The address of the instruction being executed (R200). -/
  epc : Word
  /-- The word fetched; 0 if the fetch itself faulted (R200). -/
  einstr : Word
  /-- The value the table of R201 gives. -/
  info : Nat
  /-- The state the faulting step leaves (R207), from which a later step goes on (R213). -/
  left : State
  deriving DecidableEq, Repr

/-- The five faults of spec/60_exceptions.md R201. Each is the hardware's own result of the step, so
stopping with it is safe: no behaviour of the block is lost, since the report holds the state left.
Marks: the faults other than `decodeError` rest on decisions of the spec (D3, D4, D5, D18). -/
inductive Fault where
  /-- Code 1: raised by decode of any step, when the word matches no instruction (R202). Safe. -/
  | decodeError (r : FaultReport)
  /-- Code 2: raised by `00EE` with an empty call stack (R203). Safe. -/
  | stackUnderflow (r : FaultReport)
  /-- Code 3: raised by `2nnn` with sixteen entries on the call stack (R204). Safe. -/
  | stackOverflow (r : FaultReport)
  /-- Code 4: raised by the fetch, `Dxyn`, `Fx33`, `Fx55` and `Fx65` for an address above 4095
  (R205). Safe. -/
  | addressError (r : FaultReport)
  /-- Code 5: raised by `Ex9E` and `ExA1` when `V[x]` is above 15 (R206). Safe. -/
  | keyIndexError (r : FaultReport)
  deriving DecidableEq, Repr

/-- Why a step has no meaning. -/
inductive Refusal where
  /-- Raised by an arm of `exec` for an instruction without a meaning; no arm of this model answers
  with it. Safe: the model would stop where the hardware goes on. -/
  | notModelled (mnemonic : String)
  deriving DecidableEq, Repr

/-- The outcome of a step or of a meaning. -/
abbrev Result := Host.Outcome State Fault Refusal

/-- The state right after `reset()` (spec/10_state.md R36, spec/70_reset_and_hazards.md R230). The last
three fields are the model's own (log entry 1). -/
def State.reset : State where
  mem := []
  v := Vector.replicate 16 0
  pc := Config.pcReset
  index := 0
  stack := []
  dt := 0
  st := 0
  fb := Vector.replicate 32 (Vector.replicate 64 false)
  keys := Vector.replicate 16 false
  rnd := 0
  draws := 0

end Sys2Proof.Machine
end

