-- ==== Sys2Proof/Machine/Ops.lean ====
section
/-! DEFINITION. The named operations over memory, registers, the call stack and `pc`, and raising a fault. -/

namespace Sys2Proof.Machine

/-! ### Memory -/

/-- The byte at address `a`: the one listed, else 0x00 (spec/20_memory.md R56). -/
def memRead : Memory → Nat → Byte
  | [], _ => 0
  | (b, w) :: m, a => if a = b then w else memRead m a

/-- Memory with byte `v` at address `a`; an address that comes to hold 0x00 is no longer listed. -/
def memWrite : Memory → Nat → Byte → Memory
  | [], a, v => if v = 0 then [] else [(a, v)]
  | (b, w) :: m, a, v =>
    if a < b then (if v = 0 then (b, w) :: m else (a, v) :: (b, w) :: m)
    else if a = b then (if v = 0 then m else (a, v) :: m)
    else (b, w) :: memWrite m a v

/-- Byte by byte in ascending order from address `a` (spec/20_memory.md R54). -/
def memWriteList : Memory → Nat → List Byte → Memory
  | m, _, [] => m
  | m, a, v :: vs => memWriteList (memWrite m a v) (a + 1) vs

/-- The `k` bytes from address `a` up, in ascending order (spec/20_memory.md R54). -/
def memReadList (m : Memory) (a k : Nat) : List Byte :=
  (List.range k).map fun j => memRead m (a + j)

/-- The canonical form, from address `lo` up: addresses strictly rise, none is past the memory's
end, and no listed byte is 0x00. -/
def memWfFrom : Nat → Memory → Bool
  | _, [] => true
  | lo, (b, w) :: m => decide (lo ≤ b) && decide (b < Config.memSize) && (w != 0) && memWfFrom (b + 1) m

/-- The canonical form of a memory. -/
def Memory.wf (m : Memory) : Bool := memWfFrom 0 m

/-- The bounds test of an access at `a` (spec/20_memory.md R52). -/
def inBounds (a : Nat) : Bool := decide (a < Config.memSize)

/-- `MemRead(a, 1)`: the byte, or the offending address (spec/00_scope.md R11, spec/20_memory.md R52). -/
def memReadChecked (m : Memory) (a : Nat) : Except Nat Byte :=
  if inBounds a then .ok (memRead m a) else .error a

/-- The whole-range test of a data instruction over the `k` bytes from `base` up: the lowest address
out of range, if there is one (spec/20_memory.md R57, spec/60_exceptions.md R205). -/
def rangeFault (base k : Nat) : Option Nat :=
  if k = 0 ∨ base + k ≤ Config.memSize then none else some (max base Config.memSize)

/-! ### Registers -/

/-- `V[x]` (spec/00_scope.md R11). -/
def readReg (s : State) (x : Reg) : Byte := s.v[x.val]

/-- `V[x] <- b` (spec/00_scope.md R11). -/
def writeReg (s : State) (x : Reg) (b : Byte) : State := { s with v := s.v.set x.val b }

/-- VF, the flag register (spec/10_state.md R22). -/
def vf : Reg := 15

/-- `pc <- t` (spec/00_scope.md R11). -/
def setPc (s : State) (t : Word) : State := { s with pc := t }

/-- `I <- a`. -/
def setIndex (s : State) (a : Word) : State := { s with index := a }

/-- Stores a new memory. -/
def setMem (s : State) (m : Memory) : State := { s with mem := m }

/-- Stores a new call stack. -/
def setStack (s : State) (l : List Word) : State := { s with stack := l }

/-- `DT <- b`. -/
def setDt (s : State) (b : Byte) : State := { s with dt := b }

/-- `ST <- b`. -/
def setSt (s : State) (b : Byte) : State := { s with st := b }

/-- Stores a new framebuffer. -/
def setFb (s : State) (f : FrameBuffer) : State := { s with fb := f }

/-- Sets the arguments `keys` and `rnd` of the step to come (spec/00_scope.md R7). -/
def setInputs (s : State) (keys : Keypad) (rnd : Byte) : State := { s with keys := keys, rnd := rnd }

/-- The advance of `pc` by the fetch (spec/30_encoding.md R74). -/
def advancePc (s : State) : State := setPc s (s.pc + 2)

/-- `skip` when the condition holds: `pc <- pc + 2` on the already advanced `pc` (spec/00_scope.md R11). -/
def skipIf (c : Bool) (s : State) : State := if c then setPc s (s.pc + 2) else s

/-- The result is written first and VF last, so that VF ends with the flag when it is the destination
too (spec/00_scope.md R12, spec/41_load_alu.md R133). -/
def writeRegFlag (s : State) (x : Reg) (b flag : Byte) : State := writeReg (writeReg s x b) vf flag

/-- Writes the bytes into the registers from number `k` up, in ascending order. -/
def writeRegsFrom : State → Nat → List Byte → State
  | s, _, [] => s
  | s, k, b :: bs => writeRegsFrom { s with v := s.v.setIfInBounds k b } (k + 1) bs

/-- The registers `V[0]` to `V[x]` in ascending order. -/
def readRegsTo (s : State) (x : Reg) : List Byte := s.v.toList.take (x.val + 1)

/-! ### The call stack (spec/10_state.md R26) -/

/-- The count `sp`. -/
def sp (s : State) : Nat := s.stack.length

/-- `push(v)`: none when the stack is full. -/
def push (s : State) (t : Word) : Option State :=
  if sp s < Config.stackDepth then some (setStack s (t :: s.stack)) else none

/-- `pop()`: the last pushed value and the state without it; none when the stack is empty. -/
def pop (s : State) : Option (Word × State) :=
  match s.stack with
  | [] => none
  | t :: rest => some (t, setStack s rest)

/-! ### Faults -/

/-- The one way an executing instruction raises a fault. Inside execute `pc` is `pc0 + 2`, so the
report's `epc` is `pc - 2`; its `einstr` is the instruction's word; and the state left is the one
execute began with, in which only the fetch's advance has happened
(spec/60_exceptions.md R200, R207; spec/20_memory.md R57). -/
def raise (fault : FaultReport → Fault) (i : Instr) (info : Nat) (s : State) : Result :=
  .fault (fault ⟨s.pc - 2, encode i, info, s⟩)

/-- The report of a fault. -/
def faultReport : Fault → FaultReport
  | .decodeError r => r
  | .stackUnderflow r => r
  | .stackOverflow r => r
  | .addressError r => r
  | .keyIndexError r => r

/-- The code of a fault (spec/60_exceptions.md R201). -/
def faultCode : Fault → Nat
  | .decodeError _ => 1
  | .stackUnderflow _ => 2
  | .stackOverflow _ => 3
  | .addressError _ => 4
  | .keyIndexError _ => 5

/-- A report whose state left is changed by `f`. -/
def mapReport (f : State → State) (r : FaultReport) : FaultReport := { r with left := f r.left }

/-- The fault whose state left is changed by `f`. -/
def mapFault (f : State → State) : Fault → Fault
  | .decodeError r => .decodeError (mapReport f r)
  | .stackUnderflow r => .stackUnderflow (mapReport f r)
  | .stackOverflow r => .stackOverflow (mapReport f r)
  | .addressError r => .addressError (mapReport f r)
  | .keyIndexError r => .keyIndexError (mapReport f r)

/-- The outcome whose state, next or left, is changed by `f`. -/
def mapResult (f : State → State) : Result → Result
  | .next s => .next (f s)
  | .fault e => .fault (mapFault f e)
  | .refused r => .refused r

/-! ### The inputs of the next step -/

/-- The arguments of the next step are drawn anew: a step's `keys` and `rnd` do not survive it and
nothing relates them to those of another step (spec/10_state.md R30, R31). Log entry 1. -/
def drawInputs (s : State) : State :=
  { s with keys := Config.hostKeys s.draws, rnd := Config.hostRnd s.draws, draws := s.draws + 1 }

end Sys2Proof.Machine
end

