-- ==== Sys2Proof/Machine/Operands.lean ====
section
/-! DEFINITION. The operand forms: addresses, decimal digits, glyph addresses, keys and sprite pixels. -/

namespace Sys2Proof.Machine

/-- The base of every data address: the index register as an unbounded number
(spec/20_memory.md R53, spec/42_index_memory.md R146). -/
def indexBase (s : State) : Nat := s.index.toNat

/-- A jump target `nnn`, zero-extended (spec/40_control_flow.md R101). -/
def target (nnn : Addr) : Word := nnn.setWidth 16

/-- The sum `nnn + V[x]` in 16 bits, not masked to 12 (spec/40_control_flow.md R108). -/
def offsetTarget (nnn : Addr) (a : Byte) : Word := target nnn + a.setWidth 16

/-- `0x50 + 5 * (a and 0x0F)` (spec/42_index_memory.md R142). -/
def glyphAddress (a : Byte) : Word := BitVec.ofNat 16 (Config.fontBase + 5 * (a &&& 0x0F).toNat)

/-- The hundreds, tens and ones of a byte (spec/42_index_memory.md R143). -/
def decimalDigits (a : Byte) : List Byte := [a / 100, (a / 10) % 10, a % 10]

/-- Whether key `k` is down in the step's `keys` argument (spec/10_state.md R30); `k` is at most 15
wherever an instruction asks. -/
def keyDown (keys : Keypad) (k : Nat) : Bool := keys[k]?.getD false

/-- The least key that is down (spec/44_keypad_timers.md R172). -/
def lowestKey (keys : Keypad) : Option Nat := (List.range 16).find? (keyDown keys)

/-- `FB[y][x]`; no pixel lies outside the grid (spec/10_state.md R29). -/
def pixel (f : FrameBuffer) (x y : Nat) : Bool := ((f[y]?).bind (·[x]?)).getD false

/-- The framebuffer with pixel (`x`, `y`) set to `b`. -/
def setPixel (f : FrameBuffer) (x y : Nat) (b : Bool) : FrameBuffer :=
  match f[y]? with
  | some row => f.setIfInBounds y (row.setIfInBounds x b)
  | none => f

/-- The state of a draw under way: the framebuffer and whether a set pixel was unset. -/
structure Drawing where
  fb : FrameBuffer
  collision : Bool
  deriving DecidableEq, Repr

/-- `FB[py][px] <- FB[py][px] xor 1`, noting a collision when the pixel was set
(spec/43_display.md R161). -/
def flipPixel (d : Drawing) (px py : Nat) : Drawing :=
  { fb := setPixel d.fb px py (!pixel d.fb px py)
    collision := d.collision || pixel d.fb px py }

/-- The columns `cs` of one sprite row drawn at row `py`: bit 7 is the leftmost pixel, and the first
column past 63 ends the row (spec/43_display.md R161). -/
def drawColumns (x0 py : Nat) (row : Byte) : List Nat → Drawing → Drawing
  | [], d => d
  | c :: cs, d =>
    if x0 + c > 63 then d
    else drawColumns x0 py row cs (if row.getLsbD (7 - c) then flipPixel d (x0 + c) py else d)

/-- The sprite rows drawn from row `py` down; the first row past 31 ends the draw
(spec/43_display.md R161). -/
def drawRows (x0 : Nat) : Nat → List Byte → Drawing → Drawing
  | _, [], d => d
  | py, row :: rows, d =>
    if py > 31 then d else drawRows x0 (py + 1) rows (drawColumns x0 py row (List.range 8) d)

end Sys2Proof.Machine
end

