-- ==== Sys2Proof/Machine/ControlFlow.lean ====
section
/-! DEFINITION. Control transfer: `00EE 1nnn 2nnn 3xnn 4xnn 5xy0 9xy0 Bxnn` (spec/40_control_flow.md).
Here and in the other families the state a meaning is given is the one after the fetch: `pc` is
`pc0 + 2` already (spec/30_encoding.md R74). -/

namespace Sys2Proof.Machine

/-- `00EE` (R100; the fault: spec/60_exceptions.md R203). -/
def execRet (s : State) : Result :=
  match pop s with
  | none => raise .stackUnderflow .ret 0 s
  | some (t, s') => .next (setPc s' t)

/-- `1nnn` (R101). -/
def execJp (nnn : Addr) (s : State) : Result := .next (setPc s (target nnn))

/-- `2nnn` (R102; the fault: spec/60_exceptions.md R204). -/
def execCall (nnn : Addr) (s : State) : Result :=
  match push s s.pc with
  | none => raise .stackOverflow (.call nnn) 0 s
  | some s' => .next (setPc s' (target nnn))

/-- `3xnn` (R103). -/
def execSeImm (x : Reg) (nn : Byte) (s : State) : Result := .next (skipIf (readReg s x == nn) s)

/-- `4xnn` (R104). -/
def execSneImm (x : Reg) (nn : Byte) (s : State) : Result := .next (skipIf (readReg s x != nn) s)

/-- `5xy0` (R105). -/
def execSeReg (x y : Reg) (s : State) : Result := .next (skipIf (readReg s x == readReg s y) s)

/-- `9xy0` (R106). -/
def execSneReg (x y : Reg) (s : State) : Result := .next (skipIf (readReg s x != readReg s y) s)

/-- `Bxnn` (R108). -/
def execJpVx (x : Reg) (nnn : Addr) (s : State) : Result :=
  .next (setPc s (offsetTarget nnn (readReg s x)))

end Sys2Proof.Machine
end

