-- ==== Sys2Proof/Machine/Flags.lean ====
section
/-! DEFINITION. The flag computations: the values VF receives (spec/10_state.md R22). Each is a function of
the operand values read, never of the wrapped result (spec/41_load_alu.md R132). -/

namespace Sys2Proof.Machine

/-- The value of a flag: 1 or 0. -/
def flagByte (c : Bool) : Byte := if c then 1 else 0

/-- The carry out of `a + b` (spec/41_load_alu.md R126). -/
def carryFlag (a b : Byte) : Byte := flagByte (decide (a.toNat + b.toNat > 255))

/-- The complement of the borrow of `a - b`: 1 when `a >= b` (spec/41_load_alu.md R127, R129). -/
def notBorrowFlag (a b : Byte) : Byte := flagByte (decide (a.toNat ≥ b.toNat))

/-- The bit a right shift moves out (spec/41_load_alu.md R128). -/
def shiftedOutRight (b : Byte) : Byte := flagByte (b.getLsbD 0)

/-- The bit a left shift moves out (spec/41_load_alu.md R130). -/
def shiftedOutLeft (b : Byte) : Byte := flagByte (b.getLsbD 7)

/-- Whether the exact sum `I + V[x]` passes 0x0FFF (spec/42_index_memory.md R141). -/
def indexOverflow (index : Word) (a : Byte) : Bool := decide (index.toNat + a.toNat > 0x0FFF)

end Sys2Proof.Machine
end

