-- ==== Sys2Proof/Machine/Display.lean ====
section
/-! DEFINITION. The display: `00E0 Dxyn` (spec/43_display.md). -/

namespace Sys2Proof.Machine

/-- The framebuffer with every pixel 0 (R160). -/
def clearFrame : FrameBuffer := Vector.replicate 32 (Vector.replicate 64 false)

/-- `00E0` (R160). -/
def execCls (s : State) : Result := .next (setFb s clearFrame)

/-- `Dxyn` (R161): the coordinates and all `n` sprite bytes are read and the range tested first; the
draw starts with no collision, which is VF's reset to 0; VF is written last. -/
def execDrw (x y : Reg) (n : Nibble) (s : State) : Result :=
  match rangeFault (indexBase s) n.toNat with
  | some a => raise .addressError (.drw x y n) a s
  | none =>
    let x0 := (readReg s x).toNat % 64
    let y0 := (readReg s y).toNat % 32
    let d := drawRows x0 y0 (memReadList s.mem (indexBase s) n.toNat) ⟨s.fb, false⟩
    .next (writeReg (setFb s d.fb) vf (flagByte d.collision))

end Sys2Proof.Machine
end

