-- ==== Sys2Proof/Machine/IndexMemory.lean ====
section
/-! DEFINITION. The index register and memory: `Annn Fx1E Fx29 Fx33 Fx55 Fx65` (spec/42_index_memory.md). -/

namespace Sys2Proof.Machine

/-- `Annn` (R140). -/
def execLdI (nnn : Addr) (s : State) : Result := .next (setIndex s (target nnn))

/-- `Fx1E`: VF is set to 1 past 0x0FFF and otherwise not written (R141). -/
def execAddI (x : Reg) (s : State) : Result :=
  let a := readReg s x
  let s' := setIndex s (s.index + a.setWidth 16)
  .next (if indexOverflow s.index a then writeReg s' vf 1 else s')

/-- `Fx29` (R142). -/
def execLdF (x : Reg) (s : State) : Result := .next (setIndex s (glyphAddress (readReg s x)))

/-- `Fx33` (R143; the fault: spec/60_exceptions.md R205). -/
def execLdB (x : Reg) (s : State) : Result :=
  match rangeFault (indexBase s) 3 with
  | some a => raise .addressError (.ldB x) a s
  | none => .next (setMem s (memWriteList s.mem (indexBase s) (decimalDigits (readReg s x))))

/-- `Fx55` (R144; the fault: spec/60_exceptions.md R205). -/
def execStRegs (x : Reg) (s : State) : Result :=
  match rangeFault (indexBase s) (x.val + 1) with
  | some a => raise .addressError (.stRegs x) a s
  | none => .next (setMem s (memWriteList s.mem (indexBase s) (readRegsTo s x)))

/-- `Fx65` (R145; the fault: spec/60_exceptions.md R205). -/
def execLdRegs (x : Reg) (s : State) : Result :=
  match rangeFault (indexBase s) (x.val + 1) with
  | some a => raise .addressError (.ldRegs x) a s
  | none => .next (writeRegsFrom s 0 (memReadList s.mem (indexBase s) (x.val + 1)))

end Sys2Proof.Machine
end

