-- ==== Sys2Proof/Machine/KeypadTimers.lean ====
section
/-! DEFINITION. The keypad and the timers: `Ex9E ExA1 Fx0A Fx07 Fx15 Fx18` (spec/44_keypad_timers.md). -/

namespace Sys2Proof.Machine

/-- `Ex9E` (R170; the fault: spec/60_exceptions.md R206). -/
def execSkp (x : Reg) (s : State) : Result :=
  let k := (readReg s x).toNat
  if k > 15 then raise .keyIndexError (.skp x) k s else .next (skipIf (keyDown s.keys k) s)

/-- `ExA1` (R171; the fault: spec/60_exceptions.md R206). -/
def execSknp (x : Reg) (s : State) : Result :=
  let k := (readReg s x).toNat
  if k > 15 then raise .keyIndexError (.sknp x) k s else .next (skipIf (!keyDown s.keys k) s)

/-- `Fx0A`: with no key down `pc` goes back to this instruction (R172). -/
def execLdVxK (x : Reg) (s : State) : Result :=
  .next (match lowestKey s.keys with
    | none => setPc s (s.pc - 2)
    | some k => writeReg s x (BitVec.ofNat 8 k))

/-- `Fx07` (R173). -/
def execLdVxDt (x : Reg) (s : State) : Result := .next (writeReg s x s.dt)

/-- `Fx15` (R174). -/
def execLdDtVx (x : Reg) (s : State) : Result := .next (setDt s (readReg s x))

/-- `Fx18` (R175). -/
def execLdStVx (x : Reg) (s : State) : Result := .next (setSt s (readReg s x))

end Sys2Proof.Machine
end

