-- ==== Sys2Proof/Machine/LoadAlu.lean ====
section
/-! DEFINITION. Register load, arithmetic, logic, shift and random:
`6xnn 7xnn 8xy0 to 8xy7 8xyE Cxnn` (spec/41_load_alu.md). -/

namespace Sys2Proof.Machine

/-- `6xnn` (R120). -/
def execLdImm (x : Reg) (nn : Byte) (s : State) : Result := .next (writeReg s x nn)

/-- `7xnn` (R121). -/
def execAddImm (x : Reg) (nn : Byte) (s : State) : Result := .next (writeReg s x (readReg s x + nn))

/-- `8xy0` (R122). -/
def execLdReg (x y : Reg) (s : State) : Result := .next (writeReg s x (readReg s y))

/-- `8xy1` (R123). -/
def execOrReg (x y : Reg) (s : State) : Result := .next (writeReg s x (readReg s x ||| readReg s y))

/-- `8xy2` (R124). -/
def execAndReg (x y : Reg) (s : State) : Result := .next (writeReg s x (readReg s x &&& readReg s y))

/-- `8xy3` (R125). -/
def execXorReg (x y : Reg) (s : State) : Result := .next (writeReg s x (readReg s x ^^^ readReg s y))

/-- `8xy4` (R126). -/
def execAddReg (x y : Reg) (s : State) : Result :=
  let a := readReg s x
  let b := readReg s y
  .next (writeRegFlag s x (a + b) (carryFlag a b))

/-- `8xy5` (R127). -/
def execSub (x y : Reg) (s : State) : Result :=
  let a := readReg s x
  let b := readReg s y
  .next (writeRegFlag s x (a - b) (notBorrowFlag a b))

/-- `8xy6` (R128). -/
def execShr (x y : Reg) (s : State) : Result :=
  let b := readReg s y
  .next (writeRegFlag s x (b >>> 1) (shiftedOutRight b))

/-- `8xy7` (R129). -/
def execSubn (x y : Reg) (s : State) : Result :=
  let a := readReg s x
  let b := readReg s y
  .next (writeRegFlag s x (b - a) (notBorrowFlag b a))

/-- `8xyE` (R130). -/
def execShl (x y : Reg) (s : State) : Result :=
  let b := readReg s y
  .next (writeRegFlag s x (b <<< 1) (shiftedOutLeft b))

/-- `Cxnn`: `rnd and nn`, `rnd` being the step's free input (R131). -/
def execRnd (x : Reg) (nn : Byte) (s : State) : Result := .next (writeReg s x (s.rnd &&& nn))

end Sys2Proof.Machine
end

