-- ==== Sys2Proof/Machine/Cycle.lean ====
section
/-! DEFINITION. The spec's operation `step(keys, rnd)`: fetch, decode, execute (spec/30_encoding.md R74). -/

namespace Sys2Proof.Machine

/-- The fetch: the two bytes at `pc` and `pc + 1`, the lower address first, as a big-endian word; or
the offending address (spec/20_memory.md R53, R54). -/
def fetch (s : State) : Except Nat Word :=
  match memReadChecked s.mem s.pc.toNat with
  | .error a => .error a
  | .ok hi =>
    match memReadChecked s.mem (s.pc.toNat + 1) with
    | .error a => .error a
    | .ok lo => .ok (wordOfBytes hi lo)

/-- One fetch-decode-execute cycle, its arguments `keys` and `rnd` being the fields of the state. A
fetch fault changes nothing; a decode fault leaves the fetch's advance alone
(spec/60_exceptions.md R207). -/
def cycle (s : State) : Result :=
  match fetch s with
  | .error a => .fault (.addressError ⟨s.pc, 0, a, s⟩)
  | .ok w =>
    match decodeWord w with
    | .error _ => .fault (.decodeError ⟨s.pc, w, w.toNat, advancePc s⟩)
    | .ok i => exec i (advancePc s)

/-- One cycle, and then the draw of the next step's arguments. Log entry 1. -/
def stepOnce (s : State) : Result := mapResult drawInputs (cycle s)

/-- Stores the word where the next fetch reads it; nothing else changes. Where no two bytes exist at
`pc` (`pc` at 4095 or above) the state is as it was, and the fetch faults. -/
def placeWord (s : State) (w : Word) : State :=
  if s.pc.toNat + 1 < Config.memSize then setMem s (memWriteList s.mem s.pc.toNat (bytesOfWord w)) else s

end Sys2Proof.Machine
end

