-- ==== Sys2Proof/Machine/Step.lean ====
section
/-! DEFINITION. The step of the machine, and the placing of a word where the step fetches it. -/

namespace Sys2Proof.Machine

/-- One step: the spec's `step(keys, rnd)` with the arguments the state holds (`cycle`), after which
the arguments of the next step are drawn (spec/30_encoding.md R74, spec/10_state.md R30, R31). -/
def step (s : State) : Host.Outcome State Fault Refusal := stepOnce s

/-- The state with the word of a table row stored where `step` fetches its next instruction. -/
def State.withFetchWord (s : State) (nbits w : Nat) : State := placeWord s (tableWord nbits w)

end Sys2Proof.Machine
end

