-- ==== Sys2Proof/Machine/HostOps.lean ====
section
/-! DEFINITION. The host's operations on the block and the sequences it performs (spec/00_scope.md R7, R8). -/

namespace Sys2Proof.Machine

/-- One timer counted down, floor-clamped at 0 (spec/60_exceptions.md R215). -/
def countDown (t : Byte) : Byte := if t.toNat > 0 then t - 1 else t

/-- `tick_timers()` (spec/60_exceptions.md R215). -/
def tickTimers (s : State) : State := setSt (setDt s (countDown s.dt)) (countDown s.st)

/-- `load_font()`, the table `FONT` being its argument (spec/70_reset_and_hazards.md R231, R232). -/
def loadFont (font : Vector Byte 80) (s : State) : State :=
  setMem s (memWriteList s.mem Config.fontBase font.toList)

/-- `load_program(bytes)`: at most 3584 bytes are kept, the rest dropped silently
(spec/70_reset_and_hazards.md R233). -/
def loadProgram (bytes : List Byte) (s : State) : State :=
  setMem s (memWriteList s.mem Config.progBase (bytes.take Config.progMax))

/-- `reset()`: every architectural item at its reset value (spec/70_reset_and_hazards.md R230). The
model's own inputs of the next step are the host's and stay. -/
def resetOp (s : State) : State :=
  { State.reset with keys := s.keys, rnd := s.rnd, draws := s.draws }

/-- The launch state of a program: `reset(); load_font(); load_program(bytes)`
(spec/70_reset_and_hazards.md R234). -/
def launch (font : Vector Byte 80) (bytes : List Byte) : State :=
  loadProgram bytes (loadFont font State.reset)

/-- The accessor `fb(x, y)` (spec/10_state.md R37). -/
def fbAt (s : State) (x : Fin 64) (y : Fin 32) : Bool := pixel s.fb x.val y.val

/-- The whole grid in row-major order, pixel (`x`, `y`) at index `64 * y + x` (spec/10_state.md R37). -/
def fbRowMajor (s : State) : List Bool := (s.fb.toList.map (·.toList)).flatten

/-- The accessor `dt()` (spec/10_state.md R37). -/
def dtRead (s : State) : Byte := s.dt

/-- The accessor `st()` (spec/10_state.md R37). -/
def stRead (s : State) : Byte := s.st

/-- The accessor `sound_active()`: `ST > 0` (spec/60_exceptions.md R217). -/
def soundActive (s : State) : Bool := decide (s.st.toNat > 0)

/-- The operations of spec/00_scope.md R7 that act on the state. -/
inductive HostOp where
  | reset
  | loadFont (font : Vector Byte 80)
  | loadProgram (bytes : List Byte)
  | step (keys : Keypad) (rnd : Byte)
  | tickTimers
  deriving DecidableEq, Repr

/-- What an operation returns: `ok`, or the fault of a step (spec/60_exceptions.md R200). -/
inductive Reply where
  | ok
  | fault (f : Fault)
  | refused (r : Refusal)
  deriving DecidableEq, Repr

/-- One operation: the state after it and its reply. A step that faults leaves the state of its
report, from which the next operation goes on (spec/60_exceptions.md R207, R213). -/
def perform (op : HostOp) (s : State) : State × Reply :=
  match op with
  | .reset => (resetOp s, .ok)
  | .loadFont font => (loadFont font s, .ok)
  | .loadProgram bytes => (loadProgram bytes s, .ok)
  | .tickTimers => (tickTimers s, .ok)
  | .step keys rnd =>
    match cycle (setInputs s keys rnd) with
    | .next s' => (s', .ok)
    | .fault f => ((faultReport f).left, .fault f)
    | .refused r => (s, .refused r)

/-- A sequence of operations in order, with the replies: any interleaving of steps and ticks the host
chooses (spec/00_scope.md R8, spec/60_exceptions.md R216). -/
def performAll : List HostOp → State → State × List Reply
  | [], s => (s, [])
  | op :: ops, s =>
    let r := perform op s
    let rest := performAll ops r.1
    (rest.1, r.2 :: rest.2)

end Sys2Proof.Machine
end

