-- ==== Sys2Proof/Safety.lean ====
section
/-! DEFINITION. What claims call a good state, a good outcome and a legal sequence of operations. -/

namespace Sys2Proof.Machine

/-- A return address some call can have pushed (spec/10_state.md R23: at most 0x1000). -/
def goodReturn (t : Word) : Bool := decide (t.toNat ≤ 0x1000)

/-- The states the machine keeps to: memory in its canonical form, at most sixteen stack entries
(spec/10_state.md R26), each of them and `pc` no larger than any step can leave it (R23). -/
def StateInv (s : State) : Bool :=
  Memory.wf s.mem && decide (sp s ≤ Config.stackDepth) && s.stack.all goodReturn
    && decide (s.pc.toNat ≤ 0x10FE)

/-- The outcome is a next state: the step neither faulted nor was refused
(spec/60_exceptions.md R213: a step that faulted is where a run has gone wrong). -/
def Completes : Result → Bool
  | .next _ => true
  | .fault _ => false
  | .refused _ => false

/-- A run of `k` steps from `s` without a fault. -/
def SafeRun (k : Nat) (s : State) : Prop := ∃ t, Host.Core.run Sys2Proof.core k s = .next t

/-- The end of a run by a self-jump: the word at `pc` is a jump to `pc` itself, after which no step changes the
state (spec/70_reset_and_hazards.md R235 (a), R240). -/
def AtSelfJump (s : State) : Bool :=
  match fetch s with
  | .error _ => false
  | .ok w =>
    match decodeWord w with
    | .ok (.jp nnn) => target nnn == s.pc
    | _ => false

/-- A sequence of operations in which no step faulted, so that its last state counts as good
(spec/60_exceptions.md R213, decision D28). -/
def CleanRun (ops : List HostOp) (s : State) : Bool := (performAll ops s).2.all (· == .ok)

/-- How far the host has come with the boot sequence (spec/70_reset_and_hazards.md R234). -/
inductive BootPhase where
  /-- No `reset` yet. -/
  | unreset
  /-- `reset`, and no load since. -/
  | fresh
  /-- `reset` and `load_font`. -/
  | fontLoaded
  /-- `reset` and `load_program`. -/
  | programLoaded
  /-- `reset` and both loads: steps and ticks may follow. -/
  | running
  deriving DecidableEq, Repr

/-- What an operation makes of the boot sequence, none where it is not legal: `reset` at any time starts
anew, each load follows a reset once, the two in either order, and steps and ticks follow both
(spec/70_reset_and_hazards.md R234, decision D34). -/
def nextPhase (p : BootPhase) (op : HostOp) : Option BootPhase :=
  match op, p with
  | .reset, _ => some .fresh
  | .loadFont _, .fresh => some .fontLoaded
  | .loadFont _, .programLoaded => some .running
  | .loadFont _, .unreset | .loadFont _, .fontLoaded | .loadFont _, .running => none
  | .loadProgram _, .fresh => some .programLoaded
  | .loadProgram _, .fontLoaded => some .running
  | .loadProgram _, .unreset | .loadProgram _, .programLoaded | .loadProgram _, .running => none
  | .step _ _, .running => some .running
  | .step _ _, .unreset | .step _ _, .fresh | .step _ _, .fontLoaded | .step _ _, .programLoaded => none
  | .tickTimers, .running => some .running
  | .tickTimers, .unreset | .tickTimers, .fresh | .tickTimers, .fontLoaded | .tickTimers, .programLoaded => none

/-- The phase after a sequence of operations, none where one of them is not legal. -/
def phaseAfter : BootPhase → List HostOp → Option BootPhase
  | p, [] => some p
  | p, op :: ops => (nextPhase p op).bind fun q => phaseAfter q ops

/-- The legal sequences of operations, a sequence broken off in the boot included
(spec/70_reset_and_hazards.md R234, decision D34). The reads change no state and may stand anywhere. -/
def LegalOps (ops : List HostOp) : Bool := (phaseAfter .unreset ops).isSome

end Sys2Proof.Machine
end

