-- ==== Sys2Proof/Certificates/Slice0/Obligations.lean ====
section
/-! DEFINITION. The statements for the provers. In a statement about `exec` the state given is the one after
the fetch, so its `pc` is `pc0 + 2` (spec/30_encoding.md R74): an unchanged `pc` is the advance alone. -/

namespace Sys2Proof.Machine

/-! ### Words of the statements: frames, masks, tables -/

/-- Every byte of memory reads as before. -/
def KeepsMemory (s t : State) : Prop := ∀ a, memRead t.mem a = memRead s.mem a

/-- Every general register reads as before. -/
def KeepsRegisters (s t : State) : Prop := ∀ j, readReg t j = readReg s j

/-- The call stack and both timers are as before. -/
def KeepsStackTimers (s t : State) : Prop := t.stack = s.stack ∧ t.dt = s.dt ∧ t.st = s.st

/-- The model's own fields, the inputs of the step, are as before. -/
def KeepsInputs (s t : State) : Prop := t.keys = s.keys ∧ t.rnd = s.rnd ∧ t.draws = s.draws

/-- Everything but the general registers is as before. -/
def OnlyRegistersChange (s t : State) : Prop :=
  KeepsMemory s t ∧ t.pc = s.pc ∧ t.index = s.index ∧ KeepsStackTimers s t ∧ t.fb = s.fb ∧ KeepsInputs s t

/-- Everything but register `x` is as before. -/
def OnlyRegisterChanges (x : Reg) (s t : State) : Prop :=
  (∀ j, j ≠ x → readReg t j = readReg s j) ∧ OnlyRegistersChange s t

/-- Everything but register `x` and VF is as before. -/
def OnlyRegisterAndFlagChange (x : Reg) (s t : State) : Prop :=
  (∀ j, j ≠ x → j ≠ vf → readReg t j = readReg s j) ∧ OnlyRegistersChange s t

/-- Everything but `pc` is as before. -/
def OnlyPcChanges (s t : State) : Prop :=
  KeepsRegisters s t ∧ KeepsMemory s t ∧ t.index = s.index ∧ KeepsStackTimers s t ∧ t.fb = s.fb
    ∧ KeepsInputs s t

/-- Everything but the index register is as before. -/
def OnlyIndexChanges (s t : State) : Prop :=
  KeepsRegisters s t ∧ KeepsMemory s t ∧ t.pc = s.pc ∧ KeepsStackTimers s t ∧ t.fb = s.fb ∧ KeepsInputs s t

/-- Everything but memory is as before, and in memory everything but the `k` bytes from `a` up. -/
def OnlyBytesChange (a k : Nat) (s t : State) : Prop :=
  (∀ c, (c < a ∨ a + k ≤ c) → memRead t.mem c = memRead s.mem c) ∧ KeepsRegisters s t ∧ t.pc = s.pc
    ∧ t.index = s.index ∧ KeepsStackTimers s t ∧ t.fb = s.fb ∧ KeepsInputs s t

/-- The mask `M` of spec/43_display.md R162 for `Dxyn` at the state `s`: a set bit of sprite row `r`,
column `c`, lands on pixel (`px`, `py`). -/
def spriteMask (s : State) (x y : Reg) (n : Nibble) (px py : Nat) : Bool :=
  (List.range n.toNat).any fun r => (List.range 8).any fun c =>
    decide (py = (readReg s y).toNat % 32 + r) && decide (px = (readReg s x).toNat % 64 + c)
      && (memRead s.mem (s.index.toNat + r)).getLsbD (7 - c)

/-- A pixel of the grid is set in `s` and hit by the sprite. -/
def Collides (s : State) (x y : Reg) (n : Nibble) : Prop :=
  ∃ px py, px < 64 ∧ py < 32 ∧ pixel s.fb px py = true ∧ spriteMask s x y n px py = true

/-- `pc` after a step that executes `i`, by the table of spec/10_state.md R24; `s` is the state before the
step, so `pc0` is its `pc`. -/
def pcAfter (i : Instr) (s : State) : Nat :=
  match i with
  | .jp nnn => nnn.toNat
  | .call nnn => nnn.toNat
  | .ret => (s.stack.headD 0).toNat
  | .jpVx x nnn => nnn.toNat + (readReg s x).toNat
  | .seImm x nn => if readReg s x = nn then s.pc.toNat + 4 else s.pc.toNat + 2
  | .sneImm x nn => if readReg s x ≠ nn then s.pc.toNat + 4 else s.pc.toNat + 2
  | .seReg x y => if readReg s x = readReg s y then s.pc.toNat + 4 else s.pc.toNat + 2
  | .sneReg x y => if readReg s x ≠ readReg s y then s.pc.toNat + 4 else s.pc.toNat + 2
  | .skp x => if s.keys[(readReg s x).toNat]? = some true then s.pc.toNat + 4 else s.pc.toNat + 2
  | .sknp x => if s.keys[(readReg s x).toNat]? = some false then s.pc.toNat + 4 else s.pc.toNat + 2
  | .ldVxK _ => if (∀ k : Fin 16, s.keys[k.val] = false) then s.pc.toNat else s.pc.toNat + 2
  | .cls | .ldImm _ _ | .addImm _ _ | .ldReg _ _ | .orReg _ _ | .andReg _ _ | .xorReg _ _ | .addReg _ _
  | .sub _ _ | .shr _ _ | .subn _ _ | .shl _ _ | .ldI _ | .rnd _ _ | .drw _ _ _ | .ldVxDt _
  | .ldDtVx _ | .ldStVx _ | .addI _ | .ldF _ | .ldB _ | .stRegs _ | .ldRegs _ => s.pc.toNat + 2

/-- Every item of a state is at its reset value (the table of spec/10_state.md R36). -/
def AtReset (t : State) : Prop :=
  (∀ a, memRead t.mem a = 0) ∧ (∀ j, readReg t j = 0) ∧ t.pc = 0x0200 ∧ t.index = 0 ∧ t.stack = [] ∧
  sp t = 0 ∧ t.dt = 0 ∧ t.st = 0 ∧ ∀ px py, pixel t.fb px py = false

/-- What an instruction does to VF, by the table of spec/10_state.md R22 and the sentence after it. -/
def VfRule (i : Instr) (s t : State) : Prop :=
  match i with
  | .addReg x y =>
    readReg t vf = if (readReg s x).toNat + (readReg s y).toNat > 255 then 1 else 0
  | .sub x y => readReg t vf = if (readReg s x).toNat ≥ (readReg s y).toNat then 1 else 0
  | .shr _ y => (readReg t vf).toNat = (readReg s y).toNat % 2
  | .subn x y => readReg t vf = if (readReg s y).toNat ≥ (readReg s x).toNat then 1 else 0
  | .shl _ y => (readReg t vf).toNat = (readReg s y).toNat / 128
  | .drw _ _ _ =>
    (readReg t vf = 1 ∧ ∃ px py, pixel s.fb px py = true ∧ pixel t.fb px py = false) ∨
    (readReg t vf = 0 ∧ ¬ ∃ px py, pixel s.fb px py = true ∧ pixel t.fb px py = false)
  | .addI x =>
    readReg t vf = if s.index.toNat + (readReg s x).toNat > 0x0FFF then 1 else readReg s vf
  | .ldImm x _ | .addImm x _ | .ldReg x _ | .orReg x _ | .andReg x _ | .xorReg x _ | .rnd x _
  | .ldVxDt x | .ldVxK x | .ldRegs x => x ≠ vf → readReg t vf = readReg s vf
  | .cls | .ret | .jp _ | .call _ | .seImm _ _ | .sneImm _ _ | .seReg _ _ | .sneReg _ _ | .ldI _
  | .jpVx _ _ | .skp _ | .sknp _ | .ldDtVx _ | .ldStVx _ | .ldF _ | .ldB _ | .stRegs _ =>
    readReg t vf = readReg s vf

/-- The field `x` of a word, bits 11 to 8 (spec/30_encoding.md R71). -/
def mapX (w : Word) : Reg := ⟨w.toNat / 256 % 16, Nat.mod_lt _ (by decide)⟩

/-- The field `y` of a word, bits 7 to 4 (R71). -/
def mapY (w : Word) : Reg := ⟨w.toNat / 16 % 16, Nat.mod_lt _ (by decide)⟩

/-- The field `n` of a word, bits 3 to 0 (R71). -/
def mapN (w : Word) : Nibble := BitVec.ofNat 4 (w.toNat % 16)

/-- The field `nn` of a word, bits 7 to 0 (R71). -/
def mapNn (w : Word) : Byte := BitVec.ofNat 8 (w.toNat % 256)

/-- The field `nnn` of a word, bits 11 to 0 (R71). -/
def mapNnn (w : Word) : Addr := BitVec.ofNat 12 (w.toNat % 4096)

/-- The opcode map of spec/30_encoding.md R75, families 0 to 7: mask, match, and the instruction a word `w`
stands for when it selects the row. -/
def opcodeMapLow (w : Word) : List (Word × Word × Instr) :=
  [(0xFFFF, 0x00E0, .cls),
   (0xFFFF, 0x00EE, .ret),
   (0xF000, 0x1000, .jp (mapNnn w)),
   (0xF000, 0x2000, .call (mapNnn w)),
   (0xF000, 0x3000, .seImm (mapX w) (mapNn w)),
   (0xF000, 0x4000, .sneImm (mapX w) (mapNn w)),
   (0xF00F, 0x5000, .seReg (mapX w) (mapY w)),
   (0xF000, 0x6000, .ldImm (mapX w) (mapNn w)),
   (0xF000, 0x7000, .addImm (mapX w) (mapNn w))]

/-- The opcode map, families 8 to D. -/
def opcodeMapMid (w : Word) : List (Word × Word × Instr) :=
  [(0xF00F, 0x8000, .ldReg (mapX w) (mapY w)),
   (0xF00F, 0x8001, .orReg (mapX w) (mapY w)),
   (0xF00F, 0x8002, .andReg (mapX w) (mapY w)),
   (0xF00F, 0x8003, .xorReg (mapX w) (mapY w)),
   (0xF00F, 0x8004, .addReg (mapX w) (mapY w)),
   (0xF00F, 0x8005, .sub (mapX w) (mapY w)),
   (0xF00F, 0x8006, .shr (mapX w) (mapY w)),
   (0xF00F, 0x8007, .subn (mapX w) (mapY w)),
   (0xF00F, 0x800E, .shl (mapX w) (mapY w)),
   (0xF00F, 0x9000, .sneReg (mapX w) (mapY w)),
   (0xF000, 0xA000, .ldI (mapNnn w)),
   (0xF000, 0xB000, .jpVx (mapX w) (mapNnn w)),
   (0xF000, 0xC000, .rnd (mapX w) (mapNn w)),
   (0xF000, 0xD000, .drw (mapX w) (mapY w) (mapN w))]

/-- The opcode map, families E and F. -/
def opcodeMapHigh (w : Word) : List (Word × Word × Instr) :=
  [(0xF0FF, 0xE09E, .skp (mapX w)),
   (0xF0FF, 0xE0A1, .sknp (mapX w)),
   (0xF0FF, 0xF007, .ldVxDt (mapX w)),
   (0xF0FF, 0xF00A, .ldVxK (mapX w)),
   (0xF0FF, 0xF015, .ldDtVx (mapX w)),
   (0xF0FF, 0xF018, .ldStVx (mapX w)),
   (0xF0FF, 0xF01E, .addI (mapX w)),
   (0xF0FF, 0xF029, .ldF (mapX w)),
   (0xF0FF, 0xF033, .ldB (mapX w)),
   (0xF0FF, 0xF055, .stRegs (mapX w)),
   (0xF0FF, 0xF065, .ldRegs (mapX w))]

/-- The whole opcode map of spec/30_encoding.md R75. -/
def opcodeMap (w : Word) : List (Word × Word × Instr) := opcodeMapLow w ++ opcodeMapMid w ++ opcodeMapHigh w

/-- The instructions that read the keypad (spec/10_state.md R30). -/
def readsKeys (i : Instr) : Prop := ∃ x, i = .skp x ∨ i = .sknp x ∨ i = .ldVxK x

/-- The bytes an instruction stores at `I` and up (spec/20_memory.md R50, spec/42_index_memory.md R143, R144). -/
def storedBytes (i : Instr) (s : State) : List Byte :=
  match i with
  | .ldB x =>
    [BitVec.ofNat 8 ((readReg s x).toNat / 100), BitVec.ofNat 8 ((readReg s x).toNat / 10 % 10),
      BitVec.ofNat 8 ((readReg s x).toNat % 10)]
  | .stRegs x => s.v.toList.take (x.val + 1)
  | .cls | .ret | .jp _ | .call _ | .seImm _ _ | .sneImm _ _ | .seReg _ _ | .ldImm _ _ | .addImm _ _
  | .ldReg _ _ | .orReg _ _ | .andReg _ _ | .xorReg _ _ | .addReg _ _ | .sub _ _ | .shr _ _ | .subn _ _
  | .shl _ _ | .sneReg _ _ | .ldI _ | .jpVx _ _ | .rnd _ _ | .drw _ _ _ | .skp _ | .sknp _ | .ldVxDt _
  | .ldVxK _ | .ldDtVx _ | .ldStVx _ | .addI _ | .ldF _ | .ldRegs _ => []

/-- The byte at address `a` once the bytes `l` are stored at `I` and up in the state `s`. -/
def byteAfter (s : State) (l : List Byte) (a : Nat) : Byte :=
  if s.index.toNat ≤ a ∧ a < s.index.toNat + l.length then l.getD (a - s.index.toNat) 0 else memRead s.mem a

/-- The instructions that reach memory beyond the fetch (spec/20_memory.md R50): how many bytes at `I`. -/
def dataBytes : Instr → Nat
  | .drw _ _ n => n.toNat
  | .ldB _ => 3
  | .stRegs x => x.val + 1
  | .ldRegs x => x.val + 1
  | .cls | .ret | .jp _ | .call _ | .seImm _ _ | .sneImm _ _ | .seReg _ _ | .ldImm _ _ | .addImm _ _
  | .ldReg _ _ | .orReg _ _ | .andReg _ _ | .xorReg _ _ | .addReg _ _ | .sub _ _ | .shr _ _ | .subn _ _
  | .shl _ _ | .sneReg _ _ | .ldI _ | .jpVx _ _ | .rnd _ _ | .skp _ | .sknp _ | .ldVxDt _ | .ldVxK _
  | .ldDtVx _ | .ldStVx _ | .addI _ | .ldF _ => 0

end Sys2Proof.Machine

open Sys2Proof Sys2Proof.Machine

/-! ### Encoding -/

/-- Words written out from the encodings of spec/30_encoding.md R75, one or more of every family 0 to F,
decode to the instructions they stand for; two illegal words are refused. -/
def Obligations.SpecWordsDecode : Prop :=
  decodeWord 0x00EE = .ok .ret ∧ decodeWord 0x1204 = .ok (.jp 0x204) ∧
  decodeWord 0x220A = .ok (.call 0x20A) ∧ decodeWord 0x3100 = .ok (.seImm 1 0x00) ∧
  decodeWord 0x42FF = .ok (.sneImm 2 0xFF) ∧ decodeWord 0x5120 = .ok (.seReg 1 2) ∧
  decodeWord 0x6A2F = .ok (.ldImm 0xA 0x2F) ∧ decodeWord 0x7102 = .ok (.addImm 1 0x02) ∧
  decodeWord 0x8AB4 = .ok (.addReg 0xA 0xB) ∧ decodeWord 0x812E = .ok (.shl 1 2) ∧
  decodeWord 0x9120 = .ok (.sneReg 1 2) ∧ decodeWord 0xA300 = .ok (.ldI 0x300) ∧
  decodeWord 0xB2FF = .ok (.jpVx 2 0x2FF) ∧ decodeWord 0xC10F = .ok (.rnd 1 0x0F) ∧
  decodeWord 0xD123 = .ok (.drw 1 2 3) ∧ decodeWord 0xE39E = .ok (.skp 3) ∧
  decodeWord 0xF21E = .ok (.addI 2) ∧ decodeWord 0xF50A = .ok (.ldVxK 5) ∧
  decodeWord 0x01E0 = .error (.illegal 0x01E0) ∧ decodeWord 0x5121 = .error (.illegal 0x5121)

/-- Decoding the word of a well-formed instruction gives the instruction, every operand at every value
(spec/30_encoding.md R75, R83). -/
def Obligations.DecodeAfterEncode : Prop :=
  ∀ i : Instr, WellFormed i = true → decodeWord (encode i) = .ok i

/-- Decode loses nothing (spec/30_encoding.md R83): re-encoding a decoded instruction gives its word, so
decode is injective on legal words; and what is decoded is well formed. -/
def Obligations.EncodeAfterDecode : Prop :=
  (∀ (w : Word) (i : Instr), decodeWord w = .ok i → encode i = w ∧ WellFormed i = true) ∧
  (∀ (w w' : Word) (i : Instr), decodeWord w = .ok i → decodeWord w' = .ok i → w = w')

/-- Decoding follows the opcode map (spec/30_encoding.md R75): a word that selects a row is that row's
instruction with the fields in their places, a word that selects none is illegal, and no word selects two
rows. -/
def Obligations.DecodeFollowsTheMap : Prop :=
  ∀ w : Word,
    (∀ r ∈ opcodeMap w, w &&& r.1 = r.2.1 → decodeWord w = .ok r.2.2) ∧
    ((∀ r ∈ opcodeMap w, w &&& r.1 ≠ r.2.1) → decodeWord w = .error (.illegal w)) ∧
    (opcodeMap w).Pairwise fun r q => ¬ (w &&& r.1 = r.2.1 ∧ w &&& q.1 = q.2.1)

/-- Which words are illegal, family by family (spec/30_encoding.md R76 to R80). -/
def Obligations.IllegalWordsAreExactly : Prop :=
  ∀ w : Word, decodeWord w = .error (.illegal w) ↔
    (w.toNat / 4096 = 0 ∧ w.toNat ≠ 0x00E0 ∧ w.toNat ≠ 0x00EE) ∨
    ((w.toNat / 4096 = 5 ∨ w.toNat / 4096 = 9) ∧ w.toNat % 16 ≠ 0) ∨
    (w.toNat / 4096 = 8 ∧ w.toNat % 16 ∈ [8, 9, 0xA, 0xB, 0xC, 0xD, 0xF]) ∨
    (w.toNat / 4096 = 0xE ∧ w.toNat % 256 ∉ [0x9E, 0xA1]) ∨
    (w.toNat / 4096 = 0xF ∧
      w.toNat % 256 ∉ [0x07, 0x0A, 0x15, 0x18, 0x1E, 0x29, 0x33, 0x55, 0x65])

/-! ### The step -/

/-- A step runs the decoded instruction: when the bytes at `pc` decode to `i`, the step is `exec` of `i`
with `pc` advanced by 2, after which the model draws the inputs of the next step (the draw is the model's
own, log entry 1). -/
def Obligations.StepRunsDecodedInstruction : Prop :=
  ∀ (s : State) (i : Instr), s.pc.toNat + 1 < 4096 →
    decodeWord (wordOfBytes (memRead s.mem s.pc.toNat) (memRead s.mem (s.pc.toNat + 1))) = .ok i →
    step s = mapResult drawInputs (exec i { s with pc := s.pc + 2 })

/-- The fetch is big-endian, needs no alignment, and names the lowest address that does not exist
(spec/20_memory.md R52 to R55). -/
def Obligations.FetchIsBigEndian : Prop :=
  ∀ s : State,
    (s.pc.toNat ≤ 4094 → ∃ w, fetch s = .ok w ∧
      w.toNat = 256 * (memRead s.mem s.pc.toNat).toNat + (memRead s.mem (s.pc.toNat + 1)).toNat) ∧
    (s.pc.toNat = 4095 → fetch s = .error 4096) ∧
    (4095 < s.pc.toNat → fetch s = .error s.pc.toNat)

/-- A word that matches no instruction is a decode fault that names the word and its address and leaves
the fetch's advance alone (spec/60_exceptions.md R202, R207). -/
def Obligations.IllegalWordFaults : Prop :=
  ∀ (s : State) (w : Word), fetch s = .ok w → decodeWord w = .error (.illegal w) →
    cycle s = .fault (.decodeError ⟨s.pc, w, w.toNat, { s with pc := s.pc + 2 }⟩)

/-- Every access above 4095, by the cases (a) to (d) of spec/60_exceptions.md R205: the fetch, and the four
instructions with data at `I`; the address named is the lowest out of range, and nothing is changed. -/
def Obligations.AddressErrorCases : Prop :=
  (∀ s : State, 4095 ≤ s.pc.toNat →
    cycle s = .fault (.addressError ⟨s.pc, 0, if s.pc.toNat > 4095 then s.pc.toNat else 4096, s⟩)) ∧
  (∀ (x y : Reg) (n : Nibble) (s : State), n.toNat > 0 → s.index.toNat + n.toNat - 1 > 4095 →
    exec (.drw x y n) s =
      .fault (.addressError ⟨s.pc - 2, encode (.drw x y n), max s.index.toNat 4096, s⟩)) ∧
  (∀ (x : Reg) (s : State), s.index.toNat + 2 > 4095 →
    exec (.ldB x) s = .fault (.addressError ⟨s.pc - 2, encode (.ldB x), max s.index.toNat 4096, s⟩)) ∧
  (∀ (x : Reg) (s : State), s.index.toNat + x.val > 4095 →
    exec (.stRegs x) s =
      .fault (.addressError ⟨s.pc - 2, encode (.stRegs x), max s.index.toNat 4096, s⟩) ∧
    exec (.ldRegs x) s =
      .fault (.addressError ⟨s.pc - 2, encode (.ldRegs x), max s.index.toNat 4096, s⟩))

/-- What a faulting step leaves (spec/60_exceptions.md R207): a fetch fault changes nothing, any other
fault changes exactly `pc`, to `pc0 + 2`. -/
def Obligations.FaultingStepLeaves : Prop :=
  ∀ (s : State) (f : Fault), cycle s = .fault f →
    (faultReport f).left = if s.pc.toNat ≥ 4095 then s else { s with pc := s.pc + 2 }

/-- The result of a faulting step identifies the instruction (spec/60_exceptions.md R200): `epc` is `pc0`,
`einstr` the word fetched, or 0 if the fetch itself faulted. -/
def Obligations.FaultIdentifiesInstruction : Prop :=
  ∀ (s : State) (f : Fault), cycle s = .fault f →
    (faultReport f).epc = s.pc ∧
    (∀ w, fetch s = .ok w → (faultReport f).einstr = w) ∧
    (∀ a, fetch s = .error a → (faultReport f).einstr = 0)

/-- Which faults each instruction can raise, in full, and what no fault depends on
(spec/60_exceptions.md R208). -/
def Obligations.FaultsOfEachInstruction : Prop :=
  (∀ (s : State) (f : Fault), cycle s = .fault f →
    (∃ a, fetch s = .error a ∧ faultCode f = 4) ∨
    (∃ w r, fetch s = .ok w ∧ decodeWord w = .error r ∧ faultCode f = 1) ∨
    (∃ w i, fetch s = .ok w ∧ decodeWord w = .ok i ∧
      exec i { s with pc := s.pc + 2 } = .fault f)) ∧
  (∀ (i : Instr) (s : State) (f : Fault), exec i s = .fault f →
    (i = .ret ∧ faultCode f = 2) ∨
    (∃ nnn, i = .call nnn ∧ faultCode f = 3) ∨
    (∃ x y n, i = .drw x y n ∧ faultCode f = 4) ∨
    (∃ x, (i = .ldB x ∨ i = .stRegs x ∨ i = .ldRegs x) ∧ faultCode f = 4) ∨
    (∃ x, (i = .skp x ∨ i = .sknp x) ∧ faultCode f = 5)) ∧
  (∀ (s : State) (f : Fault) (r d t : Byte) (b : FrameBuffer), cycle s = .fault f →
    ∃ g, cycle { s with rnd := r, dt := d, st := t, fb := b } = .fault g ∧ faultCode g = faultCode f ∧
      (faultReport g).epc = (faultReport f).epc ∧ (faultReport g).einstr = (faultReport f).einstr ∧
      (faultReport g).info = (faultReport f).info)

/-- No step is refused: every word is one of the instructions or a decode fault
(spec/30_encoding.md R82, R86). -/
def Obligations.StepIsNeverRefused : Prop := ∀ (s : State) (r : Refusal), step s ≠ .refused r

/-- No fault latches (spec/60_exceptions.md R213): the next step runs from the state the fault left; and after
a fetch fault every later step faults in the same way, whatever `keys` and `rnd` each step is given and
whatever ticks fall between the steps, while `pc` stays. -/
def Obligations.FaultDoesNotLatch : Prop :=
  (∀ (s : State) (f : Fault) (k k' : Keypad) (r r' : Byte), cycle (setInputs s k r) = .fault f →
    (performAll [.step k r, .step k' r'] s).1 = (perform (.step k' r') (faultReport f).left).1) ∧
  (∀ (ops : List HostOp) (s : State), 4095 ≤ s.pc.toNat →
    (∀ op ∈ ops, op = .tickTimers ∨ ∃ k r, op = .step k r) →
    (performAll ops s).1.pc = s.pc ∧ (performAll ops s).2.length = ops.length ∧
    ∀ p ∈ ops.zip (performAll ops s).2, ∀ k r, p.1 = .step k r →
      ∃ q, p.2 = .fault (.addressError q) ∧ q.epc = s.pc ∧ q.einstr = 0 ∧ q.info = max s.pc.toNat 4096)

/-! ### Invariants -/

/-- The state after reset is a good state. -/
def Obligations.ResetIsGood : Prop := StateInv State.reset = true

/-- Every step keeps the good states: memory canonical and within 4096 bytes, at most sixteen stack
entries, none above 0x1000, `pc` at most 0x10FE (spec/10_state.md R23, R26, R34). -/
def Obligations.StepKeepsGoodStates : Prop :=
  ∀ s t : State, StateInv s = true → step s = .next t → StateInv t = true

/-- Every operation of the host keeps the good states, a faulting step included. -/
def Obligations.HostOperationsKeepGoodStates : Prop :=
  ∀ (op : HostOp) (s : State), StateInv s = true → StateInv (perform op s).1 = true

/-- Whatever sequence of operations follows reset, the state is good. The sequences that are not legal (a load
in the middle of a run: spec/70_reset_and_hazards.md R234, decision D34) are among them; what such a load does
is the model's choice, log entry 12. -/
def Obligations.EverySequenceReachesGoodStates : Prop :=
  ∀ ops : List HostOp, StateInv (performAll ops State.reset).1 = true

/-! ### Control transfer -/

/-- `00EE` (spec/40_control_flow.md R100, spec/60_exceptions.md R203). -/
def Obligations.ReturnPopsOrUnderflows : Prop :=
  (encode .ret).toNat = 0x00EE ∧
  (∀ (s : State) (r : Word) (rest : List Word), s.stack = r :: rest →
    exec .ret s = .next { s with pc := r, stack := rest }) ∧
  (∀ s : State, s.stack = [] →
    exec .ret s = .fault (.stackUnderflow ⟨s.pc - 2, 0x00EE, 0, s⟩))

/-- `1nnn` (spec/40_control_flow.md R101). -/
def Obligations.JumpLoadsPc : Prop :=
  ∀ (nnn : Addr) (s : State), (encode (.jp nnn)).toNat = 0x1000 + nnn.toNat ∧
    ∃ t, exec (.jp nnn) s = .next t ∧ t.pc.toNat = nnn.toNat ∧ OnlyPcChanges s t

/-- `2nnn` (spec/40_control_flow.md R102, spec/60_exceptions.md R204): inside execute `pc` is the return
address. -/
def Obligations.CallPushesOrOverflows : Prop :=
  ∀ (nnn : Addr) (s : State), (encode (.call nnn)).toNat = 0x2000 + nnn.toNat ∧
    (sp s < 16 → ∃ t, exec (.call nnn) s = .next t ∧ t.pc.toNat = nnn.toNat ∧
      t.stack = s.pc :: s.stack ∧ KeepsRegisters s t ∧ KeepsMemory s t ∧ t.index = s.index ∧
      t.dt = s.dt ∧ t.st = s.st ∧ t.fb = s.fb ∧ KeepsInputs s t) ∧
    (16 ≤ sp s →
      exec (.call nnn) s = .fault (.stackOverflow ⟨s.pc - 2, encode (.call nnn), 0, s⟩))

/-- A call and then a return, wherever the return stands: `pc` is the value right after the call's fetch
and the stack is as before (spec/40_control_flow.md R100, R102; property S9 of spec/95_test_vectors.md). -/
def Obligations.CallThenReturnComesBack : Prop :=
  ∀ (nnn : Addr) (s : State) (p : Word), sp s < 16 →
    ∃ t u, exec (.call nnn) s = .next t ∧ exec .ret { t with pc := p } = .next u ∧
      u.pc = s.pc ∧ u.stack = s.stack

/-- The four register skips (spec/40_control_flow.md R103 to R106): two bytes more when the condition
holds, else no change. -/
def Obligations.CompareSkips : Prop :=
  (∀ (x : Reg) (nn : Byte) (s : State),
    (encode (.seImm x nn)).toNat = 0x3000 + 256 * x.val + nn.toNat ∧
    ∃ t, exec (.seImm x nn) s = .next t ∧ OnlyPcChanges s t ∧
      t.pc = if readReg s x = nn then s.pc + 2 else s.pc) ∧
  (∀ (x : Reg) (nn : Byte) (s : State),
    (encode (.sneImm x nn)).toNat = 0x4000 + 256 * x.val + nn.toNat ∧
    ∃ t, exec (.sneImm x nn) s = .next t ∧ OnlyPcChanges s t ∧
      t.pc = if readReg s x = nn then s.pc else s.pc + 2) ∧
  (∀ (x y : Reg) (s : State),
    (encode (.seReg x y)).toNat = 0x5000 + 256 * x.val + 16 * y.val ∧
    ∃ t, exec (.seReg x y) s = .next t ∧ OnlyPcChanges s t ∧
      t.pc = if readReg s x = readReg s y then s.pc + 2 else s.pc) ∧
  (∀ (x y : Reg) (s : State),
    (encode (.sneReg x y)).toNat = 0x9000 + 256 * x.val + 16 * y.val ∧
    ∃ t, exec (.sneReg x y) s = .next t ∧ OnlyPcChanges s t ∧
      t.pc = if readReg s x = readReg s y then s.pc else s.pc + 2)

/-- `Bxnn` (spec/40_control_flow.md R108): the sum is not masked to 12 bits; in a well-formed instruction
the register is the one the top nibble of `nnn` names. -/
def Obligations.JumpWithOffsetAdds : Prop :=
  (∀ (x : Reg) (nnn : Addr) (s : State), (encode (.jpVx x nnn)).toNat = 0xB000 + nnn.toNat ∧
    ∃ t, exec (.jpVx x nnn) s = .next t ∧ t.pc.toNat = nnn.toNat + (readReg s x).toNat ∧
      OnlyPcChanges s t) ∧
  (∀ (w : Word) (x : Reg) (nnn : Addr), decodeWord w = .ok (.jpVx x nnn) →
    x.val = w.toNat / 256 % 16 ∧ nnn.toNat = w.toNat % 4096)

/-- A self-jump leaves the whole state unchanged (spec/70_reset_and_hazards.md R240). -/
def Obligations.SelfJumpChangesNothing : Prop :=
  ∀ (s : State) (nnn : Addr) (w : Word), fetch s = .ok w → decodeWord w = .ok (.jp nnn) →
    s.pc.toNat = nnn.toNat → cycle s = .next s

/-- How each instruction leaves `pc`, and how a faulting step does (the table of spec/10_state.md R24). -/
def Obligations.PcAfterEachInstruction : Prop :=
  (∀ (s t : State) (w : Word) (i : Instr), fetch s = .ok w → decodeWord w = .ok i → cycle s = .next t →
    t.pc.toNat = pcAfter i s) ∧
  (∀ (s t : State) (w : Word) (nnn : Addr), fetch s = .ok w → decodeWord w = .ok (.call nnn) →
    cycle s = .next t → t.stack = (s.pc + 2) :: s.stack) ∧
  (∀ (s : State) (f : Fault) (a : Nat), cycle s = .fault f → fetch s = .error a →
    (faultReport f).left.pc = s.pc) ∧
  (∀ (s : State) (f : Fault) (w : Word), cycle s = .fault f → fetch s = .ok w →
    (faultReport f).left.pc.toNat = s.pc.toNat + 2)

/-! ### Load, arithmetic, logic, shift, random -/

/-- `6xnn` and `8xy0` (spec/41_load_alu.md R120, R122). -/
def Obligations.LoadConstantAndCopy : Prop :=
  (∀ (x : Reg) (nn : Byte) (s : State),
    (encode (.ldImm x nn)).toNat = 0x6000 + 256 * x.val + nn.toNat ∧
    ∃ t, exec (.ldImm x nn) s = .next t ∧ readReg t x = nn ∧ OnlyRegisterChanges x s t) ∧
  (∀ (x y : Reg) (s : State), (encode (.ldReg x y)).toNat = 0x8000 + 256 * x.val + 16 * y.val ∧
    ∃ t, exec (.ldReg x y) s = .next t ∧ readReg t x = readReg s y ∧ OnlyRegisterChanges x s t)

/-- `7xnn` (spec/41_load_alu.md R121): wraps modulo 256 and writes no flag. -/
def Obligations.AddConstantWraps : Prop :=
  ∀ (x : Reg) (nn : Byte) (s : State),
    (encode (.addImm x nn)).toNat = 0x7000 + 256 * x.val + nn.toNat ∧
    ∃ t, exec (.addImm x nn) s = .next t ∧
      (readReg t x).toNat = ((readReg s x).toNat + nn.toNat) % 256 ∧ OnlyRegisterChanges x s t

/-- `8xy1`, `8xy2`, `8xy3` (spec/41_load_alu.md R123 to R125): bit by bit, no flag. -/
def Obligations.LogicIsBitwise : Prop :=
  ∀ (x y : Reg) (s : State),
    ((encode (.orReg x y)).toNat = 0x8001 + 256 * x.val + 16 * y.val ∧
      ∃ t, exec (.orReg x y) s = .next t ∧ OnlyRegisterChanges x s t ∧
        ∀ k, (readReg t x).getLsbD k = ((readReg s x).getLsbD k || (readReg s y).getLsbD k)) ∧
    ((encode (.andReg x y)).toNat = 0x8002 + 256 * x.val + 16 * y.val ∧
      ∃ t, exec (.andReg x y) s = .next t ∧ OnlyRegisterChanges x s t ∧
        ∀ k, (readReg t x).getLsbD k = ((readReg s x).getLsbD k && (readReg s y).getLsbD k)) ∧
    ((encode (.xorReg x y)).toNat = 0x8003 + 256 * x.val + 16 * y.val ∧
      ∃ t, exec (.xorReg x y) s = .next t ∧ OnlyRegisterChanges x s t ∧
        ∀ k, (readReg t x).getLsbD k = ((readReg s x).getLsbD k ^^ (readReg s y).getLsbD k))

/-- `8xy4` (spec/41_load_alu.md R126): VF is the carry and is written last. -/
def Obligations.AddRegistersWithCarry : Prop :=
  ∀ (x y : Reg) (s : State), (encode (.addReg x y)).toNat = 0x8004 + 256 * x.val + 16 * y.val ∧
    ∃ t, exec (.addReg x y) s = .next t ∧
      (x ≠ vf → (readReg t x).toNat = ((readReg s x).toNat + (readReg s y).toNat) % 256) ∧
      readReg t vf = (if (readReg s x).toNat + (readReg s y).toNat > 255 then 1 else 0) ∧
      OnlyRegisterAndFlagChange x s t

/-- `8xy5` (spec/41_load_alu.md R127): VF is the complement of the borrow and is written last. -/
def Obligations.SubtractWithNotBorrow : Prop :=
  ∀ (x y : Reg) (s : State), (encode (.sub x y)).toNat = 0x8005 + 256 * x.val + 16 * y.val ∧
    ∃ t, exec (.sub x y) s = .next t ∧
      (x ≠ vf → (readReg t x).toNat =
        if (readReg s x).toNat ≥ (readReg s y).toNat then (readReg s x).toNat - (readReg s y).toNat
        else (readReg s x).toNat + 256 - (readReg s y).toNat) ∧
      readReg t vf = (if (readReg s x).toNat ≥ (readReg s y).toNat then 1 else 0) ∧
      OnlyRegisterAndFlagChange x s t

/-- `8xy6` (spec/41_load_alu.md R128): `Vy` is shifted, its bit 0 goes to VF, written last. -/
def Obligations.ShiftRightCopiesThenShifts : Prop :=
  ∀ (x y : Reg) (s : State), (encode (.shr x y)).toNat = 0x8006 + 256 * x.val + 16 * y.val ∧
    ∃ t, exec (.shr x y) s = .next t ∧
      (x ≠ vf → (readReg t x).toNat = (readReg s y).toNat / 2) ∧
      (readReg t vf).toNat = (readReg s y).toNat % 2 ∧ OnlyRegisterAndFlagChange x s t

/-- `8xy7` (spec/41_load_alu.md R129): the destination is `Vx`. -/
def Obligations.ReverseSubtractWithNotBorrow : Prop :=
  ∀ (x y : Reg) (s : State), (encode (.subn x y)).toNat = 0x8007 + 256 * x.val + 16 * y.val ∧
    ∃ t, exec (.subn x y) s = .next t ∧
      (x ≠ vf → (readReg t x).toNat =
        if (readReg s y).toNat ≥ (readReg s x).toNat then (readReg s y).toNat - (readReg s x).toNat
        else (readReg s y).toNat + 256 - (readReg s x).toNat) ∧
      readReg t vf = (if (readReg s y).toNat ≥ (readReg s x).toNat then 1 else 0) ∧
      OnlyRegisterAndFlagChange x s t

/-- `8xyE` (spec/41_load_alu.md R130): `Vy` is shifted, its bit 7 goes to VF, written last. -/
def Obligations.ShiftLeftCopiesThenShifts : Prop :=
  ∀ (x y : Reg) (s : State), (encode (.shl x y)).toNat = 0x800E + 256 * x.val + 16 * y.val ∧
    ∃ t, exec (.shl x y) s = .next t ∧
      (x ≠ vf → (readReg t x).toNat = 2 * (readReg s y).toNat % 256) ∧
      (readReg t vf).toNat = (readReg s y).toNat / 128 ∧ OnlyRegisterAndFlagChange x s t

/-- `Cxnn` (spec/41_load_alu.md R131): `rnd and nn` for whatever byte `rnd` is; no bit outside `nn` and no
value above it. -/
def Obligations.RandomIsMasked : Prop :=
  ∀ (x : Reg) (nn : Byte) (s : State),
    (encode (.rnd x nn)).toNat = 0xC000 + 256 * x.val + nn.toNat ∧
    ∃ t, exec (.rnd x nn) s = .next t ∧ OnlyRegisterChanges x s t ∧
      (∀ k, (readReg t x).getLsbD k = (s.rnd.getLsbD k && nn.getLsbD k)) ∧
      (readReg t x).toNat ≤ nn.toNat ∧ (nn = 0 → readReg t x = 0) ∧ (nn = 0xFF → readReg t x = s.rnd)

/-- The value every instruction leaves in VF (spec/10_state.md R22): the seven flag writers by the table,
all others leave VF alone unless it is their destination. -/
def Obligations.VfIsWrittenByItsTableOnly : Prop :=
  ∀ (i : Instr) (s t : State), exec i s = .next t → VfRule i s t

/-! ### The index register and memory -/

/-- `Annn` (spec/42_index_memory.md R140). -/
def Obligations.LoadIndex : Prop :=
  ∀ (nnn : Addr) (s : State), (encode (.ldI nnn)).toNat = 0xA000 + nnn.toNat ∧
    ∃ t, exec (.ldI nnn) s = .next t ∧ t.index.toNat = nnn.toNat ∧ OnlyIndexChanges s t

/-- `Fx1E` (spec/42_index_memory.md R141): VF is set past 0x0FFF and otherwise left as it was. -/
def Obligations.AddIndexSetsNeverClears : Prop :=
  ∀ (x : Reg) (s : State), (encode (.addI x)).toNat = 0xF01E + 256 * x.val ∧
    ∃ t, exec (.addI x) s = .next t ∧
      t.index.toNat = (s.index.toNat + (readReg s x).toNat) % 65536 ∧
      readReg t vf = (if s.index.toNat + (readReg s x).toNat > 0x0FFF then 1 else readReg s vf) ∧
      (∀ j, j ≠ vf → readReg t j = readReg s j) ∧ KeepsMemory s t ∧ t.pc = s.pc ∧
      KeepsStackTimers s t ∧ t.fb = s.fb ∧ KeepsInputs s t

/-- `Fx29` (spec/42_index_memory.md R142). -/
def Obligations.FontAddress : Prop :=
  ∀ (x : Reg) (s : State), (encode (.ldF x)).toNat = 0xF029 + 256 * x.val ∧
    ∃ t, exec (.ldF x) s = .next t ∧ t.index.toNat = 0x50 + 5 * ((readReg s x).toNat % 16) ∧
      OnlyIndexChanges s t

/-- `Fx33` (spec/42_index_memory.md R143): hundreds, tens and ones at `I`, `I + 1`, `I + 2`. The premise on
memory is the invariant `StepKeepsGoodStates` keeps. -/
def Obligations.DecimalDigitsAreStored : Prop :=
  ∀ (x : Reg) (s : State), (encode (.ldB x)).toNat = 0xF033 + 256 * x.val ∧
    (s.index.toNat + 2 ≤ 4095 → Memory.wf s.mem = true →
      ∃ t, exec (.ldB x) s = .next t ∧ OnlyBytesChange s.index.toNat 3 s t ∧
        (memRead t.mem s.index.toNat).toNat = (readReg s x).toNat / 100 ∧
        (memRead t.mem (s.index.toNat + 1)).toNat = (readReg s x).toNat / 10 % 10 ∧
        (memRead t.mem (s.index.toNat + 2)).toNat = (readReg s x).toNat % 10) ∧
    (s.index.toNat + 2 > 4095 →
      exec (.ldB x) s = .fault (.addressError ⟨s.pc - 2, encode (.ldB x), max s.index.toNat 4096, s⟩))

/-- `Fx55` (spec/42_index_memory.md R144): `V[0]` to `V[x]` at `I` up, `I` unchanged. -/
def Obligations.RegistersAreStored : Prop :=
  ∀ (x : Reg) (s : State), (encode (.stRegs x)).toNat = 0xF055 + 256 * x.val ∧
    (s.index.toNat + x.val ≤ 4095 → Memory.wf s.mem = true →
      ∃ t, exec (.stRegs x) s = .next t ∧ OnlyBytesChange s.index.toNat (x.val + 1) s t ∧
        ∀ j : Reg, j ≤ x → memRead t.mem (s.index.toNat + j.val) = readReg s j) ∧
    (s.index.toNat + x.val > 4095 →
      exec (.stRegs x) s =
        .fault (.addressError ⟨s.pc - 2, encode (.stRegs x), max s.index.toNat 4096, s⟩))

/-- `Fx65` (spec/42_index_memory.md R145): `V[0]` to `V[x]` from `I` up, the registers above, `I` and memory
unchanged. -/
def Obligations.RegistersAreLoaded : Prop :=
  ∀ (x : Reg) (s : State), (encode (.ldRegs x)).toNat = 0xF065 + 256 * x.val ∧
    (s.index.toNat + x.val ≤ 4095 →
      ∃ t, exec (.ldRegs x) s = .next t ∧ OnlyRegistersChange s t ∧
        ∀ j : Reg, readReg t j =
          if j ≤ x then memRead s.mem (s.index.toNat + j.val) else readReg s j) ∧
    (s.index.toNat + x.val > 4095 →
      exec (.ldRegs x) s =
        .fault (.addressError ⟨s.pc - 2, encode (.ldRegs x), max s.index.toNat 4096, s⟩))

/-- Storing `V[0]` to `V[x]` and loading them back from the same address into a zeroed register file gives
the registers back (spec/42_index_memory.md R145; property S8 of spec/95_test_vectors.md). -/
def Obligations.StoreThenLoadGivesRegistersBack : Prop :=
  ∀ (x : Reg) (s : State), s.index.toNat + x.val ≤ 4095 → Memory.wf s.mem = true →
    ∃ t u, exec (.stRegs x) s = .next t ∧
      exec (.ldRegs x) { t with v := Vector.replicate 16 0 } = .next u ∧
      ∀ j : Reg, readReg u j = if j ≤ x then readReg s j else 0

/-- A stored byte is seen by the very next fetch that covers its address (spec/20_memory.md R61): after any
instruction that completes, a fetch at any `pc` (the one the instruction left among them) reads the bytes
`Fx33` or `Fx55` stored and, beside them, the bytes that were there before. The premise on memory is the
invariant `StepKeepsGoodStates` keeps. -/
def Obligations.FetchSeesStores : Prop :=
  ∀ (i : Instr) (s t : State) (p : Word), Memory.wf s.mem = true → exec i s = .next t → p.toNat + 1 < 4096 →
    fetch { t with pc := p } =
      .ok (wordOfBytes (byteAfter s (storedBytes i s) p.toNat) (byteAfter s (storedBytes i s) (p.toNat + 1)))

/-! ### Display -/

/-- `00E0` (spec/43_display.md R160): every pixel unset, nothing else changed, and idempotent. -/
def Obligations.ClearScreen : Prop :=
  (encode .cls).toNat = 0x00E0 ∧
  ∀ s : State, ∃ t, exec .cls s = .next t ∧ (∀ px py, pixel t.fb px py = false) ∧ exec .cls t = .next t ∧
    KeepsRegisters s t ∧ KeepsMemory s t ∧ t.pc = s.pc ∧ t.index = s.index ∧ KeepsStackTimers s t ∧
    KeepsInputs s t

/-- `Dxyn` in closed form (spec/43_display.md R161, R162): the mask is xored onto the grid, VF says whether
a set pixel was hit; clipped bits do nothing; `n = 0` draws nothing and cannot fault. -/
def Obligations.DrawXorsTheMask : Prop :=
  ∀ (x y : Reg) (n : Nibble) (s : State),
    (encode (.drw x y n)).toNat = 0xD000 + 256 * x.val + 16 * y.val + n.toNat ∧
    (n = 0 ∨ s.index.toNat + n.toNat - 1 ≤ 4095 →
      ∃ t, exec (.drw x y n) s = .next t ∧
        (∀ px py, px < 64 → py < 32 →
          pixel t.fb px py = (pixel s.fb px py ^^ spriteMask s x y n px py)) ∧
        ((Collides s x y n ∧ readReg t vf = 1) ∨ (¬ Collides s x y n ∧ readReg t vf = 0)) ∧
        (∀ j, j ≠ vf → readReg t j = readReg s j) ∧ KeepsMemory s t ∧ t.pc = s.pc ∧
        t.index = s.index ∧ KeepsStackTimers s t ∧ KeepsInputs s t) ∧
    (n.toNat > 0 → s.index.toNat + n.toNat - 1 > 4095 →
      exec (.drw x y n) s =
        .fault (.addressError ⟨s.pc - 2, encode (.drw x y n), max s.index.toNat 4096, s⟩))

/-- Drawing the same sprite twice at the same place restores the framebuffer, and the second draw reports a
collision if the first set a pixel (spec/43_display.md R162). The place is the same when the coordinate
registers are, which only a coordinate in VF can break. -/
def Obligations.DrawTwiceRestores : Prop :=
  ∀ (x y : Reg) (n : Nibble) (s t : State), exec (.drw x y n) s = .next t →
    readReg t x = readReg s x → readReg t y = readReg s y →
    ∃ u, exec (.drw x y n) t = .next u ∧ u.fb = s.fb ∧
      ((∃ px py, pixel s.fb px py = false ∧ pixel t.fb px py = true) → readReg u vf = 1)

/-- The host's row-major view of the framebuffer: pixel (`x`, `y`) at index `64 * y + x`
(spec/10_state.md R37). -/
def Obligations.RowMajorView : Prop :=
  ∀ (s : State) (x : Fin 64) (y : Fin 32), (fbRowMajor s).length = 2048 ∧
    (fbRowMajor s)[64 * y.val + x.val]? = some (fbAt s x y)

/-! ### Keypad and timers -/

/-- `Ex9E` and `ExA1` (spec/44_keypad_timers.md R170, R171): the key's level in this step decides; an index
above 15 is a fault. -/
def Obligations.KeySkips : Prop :=
  ∀ (x : Reg) (s : State),
    (encode (.skp x)).toNat = 0xE09E + 256 * x.val ∧ (encode (.sknp x)).toNat = 0xE0A1 + 256 * x.val ∧
    (∀ k : Fin 16, (readReg s x).toNat = k.val →
      (∃ t, exec (.skp x) s = .next t ∧ OnlyPcChanges s t ∧
        t.pc = if s.keys[k.val] = true then s.pc + 2 else s.pc) ∧
      (∃ t, exec (.sknp x) s = .next t ∧ OnlyPcChanges s t ∧
        t.pc = if s.keys[k.val] = true then s.pc else s.pc + 2)) ∧
    ((readReg s x).toNat > 15 →
      exec (.skp x) s = .fault (.keyIndexError ⟨s.pc - 2, encode (.skp x), (readReg s x).toNat, s⟩) ∧
      exec (.sknp x) s = .fault (.keyIndexError ⟨s.pc - 2, encode (.sknp x), (readReg s x).toNat, s⟩))

/-- `Fx0A` (spec/44_keypad_timers.md R172): with no key down `pc` goes back by 2 and nothing else changes, so
that the whole step changes no state at all; else the lowest key down is stored. -/
def Obligations.KeyWaitStoresLowestKey : Prop :=
  (∀ (x : Reg) (s : State), (encode (.ldVxK x)).toNat = 0xF00A + 256 * x.val ∧
    ((∀ k : Fin 16, s.keys[k.val] = false) → exec (.ldVxK x) s = .next { s with pc := s.pc - 2 }) ∧
    (∀ k : Fin 16, s.keys[k.val] = true → (∀ j : Fin 16, j < k → s.keys[j.val] = false) →
      ∃ t, exec (.ldVxK x) s = .next t ∧ (readReg t x).toNat = k.val ∧ OnlyRegisterChanges x s t)) ∧
  (∀ (s : State) (w : Word) (x : Reg), fetch s = .ok w → decodeWord w = .ok (.ldVxK x) →
    (∀ k : Fin 16, s.keys[k.val] = false) → cycle s = .next s)

/-- `Fx07`, `Fx15` and `Fx18` (spec/44_keypad_timers.md R173 to R175): `DT` is read without change; one timer
is set, the other and all else unchanged. -/
def Obligations.TimerInstructions : Prop :=
  ∀ (x : Reg) (s : State),
    (encode (.ldVxDt x)).toNat = 0xF007 + 256 * x.val ∧
    (∃ t, exec (.ldVxDt x) s = .next t ∧ readReg t x = s.dt ∧ OnlyRegisterChanges x s t) ∧
    (encode (.ldDtVx x)).toNat = 0xF015 + 256 * x.val ∧
    exec (.ldDtVx x) s = .next { s with dt := readReg s x } ∧
    (encode (.ldStVx x)).toNat = 0xF018 + 256 * x.val ∧
    exec (.ldStVx x) s = .next { s with st := readReg s x }

/-- `tick_timers()` (spec/60_exceptions.md R215). -/
def Obligations.TickCountsDownToZero : Prop :=
  ∀ s : State, ∃ t, perform .tickTimers s = (t, .ok) ∧
    t.dt.toNat = s.dt.toNat - 1 ∧ t.st.toNat = s.st.toNat - 1 ∧
    KeepsRegisters s t ∧ KeepsMemory s t ∧ t.pc = s.pc ∧ t.index = s.index ∧ t.stack = s.stack ∧
    t.fb = s.fb ∧ KeepsInputs s t

/-! ### Whole-machine rules -/

/-- Who writes the state beyond registers and `pc`: memory only `Fx33` and `Fx55` (spec/20_memory.md R50), `I`
only `Annn`, `Fx1E`, `Fx29` (spec/10_state.md R25), the stack only `2nnn` and `00EE` (R26), `DT` only
`Fx15` (R27), `ST` only `Fx18` (R28), `FB` only `00E0` and `Dxyn` (R29). -/
def Obligations.OnlyNamedInstructionsWriteState : Prop :=
  ∀ (i : Instr) (s t : State), exec i s = .next t →
    ((∀ x, i ≠ .ldB x ∧ i ≠ .stRegs x) → t.mem = s.mem) ∧
    ((∀ nnn x, i ≠ .ldI nnn ∧ i ≠ .addI x ∧ i ≠ .ldF x) → t.index = s.index) ∧
    ((∀ nnn, i ≠ .call nnn ∧ i ≠ .ret) → t.stack = s.stack) ∧
    ((∀ x, i ≠ .ldDtVx x) → t.dt = s.dt) ∧
    ((∀ x, i ≠ .ldStVx x) → t.st = s.st) ∧
    ((∀ x y n, i ≠ .cls ∧ i ≠ .drw x y n) → t.fb = s.fb)

/-- A data instruction reads no memory beyond its own bytes at `I` (spec/20_memory.md R50, R57): in two
states that differ in memory only outside that range it ends alike, with the same registers, `pc`, `I`,
stack, timers and framebuffer. -/
def Obligations.DataReadsStayInTheirRange : Prop :=
  ∀ (i : Instr) (s t : State) (m : Memory), exec i s = .next t →
    (∀ a, s.index.toNat ≤ a → a < s.index.toNat + dataBytes i → memRead m a = memRead s.mem a) →
    ∃ u, exec i { s with mem := m } = .next u ∧ u.v = t.v ∧ u.pc = t.pc ∧ u.index = t.index ∧
      u.stack = t.stack ∧ u.dt = t.dt ∧ u.st = t.st ∧ u.fb = t.fb

/-- Only `Ex9E`, `ExA1` and `Fx0A` read the keypad (spec/10_state.md R30). -/
def Obligations.OnlyKeyInstructionsReadKeys : Prop :=
  ∀ (i : Instr) (s : State) (k : Keypad), ¬ readsKeys i →
    exec i { s with keys := k } = mapResult (fun u => { u with keys := k }) (exec i s)

/-- Only `Cxnn` reads the random byte (spec/10_state.md R31). -/
def Obligations.OnlyRandomReadsRnd : Prop :=
  ∀ (i : Instr) (s : State) (r : Byte), (∀ x nn, i ≠ .rnd x nn) →
    exec i { s with rnd := r } = mapResult (fun u => { u with rnd := r }) (exec i s)

/-! ### Reset and loading -/

/-- What reset leaves, item by item: the state after reset, and the operation `reset()` at any time
(spec/10_state.md R36, spec/70_reset_and_hazards.md R230). -/
def Obligations.ResetValues : Prop :=
  AtReset State.reset ∧ ∀ s : State, ∃ t, perform .reset s = (t, .ok) ∧ AtReset t

/-- `load_font()` writes the 80 bytes from 0x050 up and nothing else (spec/70_reset_and_hazards.md R231). -/
def Obligations.LoadFontWritesTheTable : Prop :=
  ∀ (font : Vector Byte 80) (s : State), Memory.wf s.mem = true →
    ∃ t, perform (.loadFont font) s = (t, .ok) ∧ OnlyBytesChange 0x50 80 s t ∧
      ∀ j : Fin 80, memRead t.mem (0x50 + j.val) = font[j.val]

/-- `load_program(bytes)` writes at most 3584 bytes from 0x200 up and nothing else; the rest is dropped
without an error (spec/70_reset_and_hazards.md R233). -/
def Obligations.LoadProgramTruncates : Prop :=
  ∀ (bytes : List Byte) (s : State), Memory.wf s.mem = true →
    ∃ t, perform (.loadProgram bytes) s = (t, .ok) ∧
      OnlyBytesChange 0x200 (min bytes.length 3584) s t ∧
      ∀ j, j < min bytes.length 3584 → memRead t.mem (0x200 + j) = bytes.getD j 0

/-- The launch state of a program (spec/70_reset_and_hazards.md R234), and that the two loads may be exchanged
(spec/20_memory.md R62). -/
def Obligations.LaunchState : Prop :=
  ∀ (font : Vector Byte 80) (bytes : List Byte) (s : State),
    ∃ t, performAll [.reset, .loadFont font, .loadProgram bytes] s = (t, [.ok, .ok, .ok]) ∧
      performAll [.reset, .loadProgram bytes, .loadFont font] s = (t, [.ok, .ok, .ok]) ∧
      (∀ j : Fin 80, memRead t.mem (0x50 + j.val) = font[j.val]) ∧
      (∀ j, j < min bytes.length 3584 → memRead t.mem (0x200 + j) = bytes.getD j 0) ∧
      (∀ a, (a < 0x50 ∨ (0x9F < a ∧ a < 0x200) ∨ 0x200 + min bytes.length 3584 ≤ a) → memRead t.mem a = 0) ∧
      (∀ j, readReg t j = 0) ∧ t.index = 0 ∧ t.stack = [] ∧ t.dt = 0 ∧ t.st = 0 ∧
      (∀ px py, pixel t.fb px py = false) ∧ t.pc = 0x0200
end

