-- ==== Sys2Proof/Laws/Decode.lean ====
section
/-! SUPPORT. The encoder's words as numbers, and the fields read back from them. -/

namespace Sys2Proof

theorem wordOfBytes_toNat (hi lo : Byte) : (wordOfBytes hi lo).toNat = 256 * hi.toNat + lo.toNat := by
  have h := lo.isLt
  simp only [wordOfBytes, BitVec.toNat_append]
  rw [← Nat.shiftLeft_add_eq_or_of_lt h, Nat.shiftLeft_eq]
  omega

theorem encodeNnn_toNat (op : Nibble) (nnn : Addr) :
    (encodeNnn op nnn).toNat = 4096 * op.toNat + nnn.toNat := by
  have h := nnn.isLt
  simp only [encodeNnn, BitVec.toNat_append]
  rw [← Nat.shiftLeft_add_eq_or_of_lt h, Nat.shiftLeft_eq]
  omega

theorem encodeXnn_toNat (op : Nibble) (x : Reg) (nn : Byte) :
    (encodeXnn op x nn).toNat = 4096 * op.toNat + 256 * x.val + nn.toNat := by
  have h := encodeNnn_toNat op (regBits x ++ nn : Addr)
  have hn := nn.isLt
  have hx : (regBits x ++ nn : Addr).toNat = 256 * x.val + nn.toNat := by
    simp only [BitVec.toNat_append]
    rw [← Nat.shiftLeft_add_eq_or_of_lt hn, Nat.shiftLeft_eq]
    simp only [regBits, BitVec.toNat_ofFin]
    omega
  rw [hx] at h
  simp only [encodeNnn] at h
  simp only [encodeXnn, h]
  omega

theorem encodeXyn_toNat (op : Nibble) (x y : Reg) (n : Nibble) :
    (encodeXyn op x y n).toNat = 4096 * op.toNat + 256 * x.val + 16 * y.val + n.toNat := by
  have h := encodeXnn_toNat op x (regBits y ++ n : Byte)
  have hn := n.isLt
  have hy : (regBits y ++ n : Byte).toNat = 16 * y.val + n.toNat := by
    simp only [BitVec.toNat_append]
    rw [← Nat.shiftLeft_add_eq_or_of_lt hn, Nat.shiftLeft_eq]
    simp only [regBits, BitVec.toNat_ofFin]
    omega
  rw [hy] at h
  simp only [encodeXnn] at h
  simp only [encodeXyn, h]
  omega

theorem fieldN1_toNat (w : Word) : (fieldN1 w).toNat = w.toNat / 4096 := by
  have h := w.isLt
  simp only [fieldN1, BitVec.extractLsb'_toNat, Nat.shiftRight_eq_div_pow]
  omega

theorem fieldX_val (w : Word) : (fieldX w).val = w.toNat / 256 % 16 := by
  simp only [fieldX, BitVec.val_toFin, BitVec.extractLsb'_toNat, Nat.shiftRight_eq_div_pow]

theorem fieldY_val (w : Word) : (fieldY w).val = w.toNat / 16 % 16 := by
  simp only [fieldY, BitVec.val_toFin, BitVec.extractLsb'_toNat, Nat.shiftRight_eq_div_pow]

theorem fieldN_toNat (w : Word) : (fieldN w).toNat = w.toNat % 16 := by
  simp only [fieldN, BitVec.extractLsb'_toNat, Nat.shiftRight_eq_div_pow]
  omega

theorem fieldNn_toNat (w : Word) : (fieldNn w).toNat = w.toNat % 256 := by
  simp only [fieldNn, BitVec.extractLsb'_toNat, Nat.shiftRight_eq_div_pow]
  omega

theorem fieldNnn_toNat (w : Word) : (fieldNnn w).toNat = w.toNat % 4096 := by
  simp only [fieldNnn, BitVec.extractLsb'_toNat, Nat.shiftRight_eq_div_pow]
  omega

theorem byte_eq_of_toNat {a b : Byte} (h : a.toNat = b.toNat) : a = b := BitVec.eq_of_toNat_eq h

/-- The two bytes of a word give the word back. -/
theorem wordOfBytes_bytesOfWord (w : Word) :
    wordOfBytes (w.extractLsb' 8 8) (w.extractLsb' 0 8) = w := by
  apply BitVec.eq_of_toNat_eq
  rw [wordOfBytes_toNat]
  have h := w.isLt
  simp only [BitVec.extractLsb'_toNat, Nat.shiftRight_eq_div_pow]
  omega

end Sys2Proof
end

