-- ==== Sys2Proof/Laws/State.lean ====
section
/-! SUPPORT. What each update of the state leaves in each field: one lemma per field per update. -/

namespace Sys2Proof.Machine

variable (s : State)

@[simp] theorem setPc_mem (t : Word) : (setPc s t).mem = s.mem := rfl
@[simp] theorem setPc_v (t : Word) : (setPc s t).v = s.v := rfl
@[simp] theorem setPc_pc (t : Word) : (setPc s t).pc = t := rfl
@[simp] theorem setPc_index (t : Word) : (setPc s t).index = s.index := rfl
@[simp] theorem setPc_stack (t : Word) : (setPc s t).stack = s.stack := rfl
@[simp] theorem setPc_dt (t : Word) : (setPc s t).dt = s.dt := rfl
@[simp] theorem setPc_st (t : Word) : (setPc s t).st = s.st := rfl
@[simp] theorem setPc_fb (t : Word) : (setPc s t).fb = s.fb := rfl
@[simp] theorem setPc_keys (t : Word) : (setPc s t).keys = s.keys := rfl
@[simp] theorem setPc_rnd (t : Word) : (setPc s t).rnd = s.rnd := rfl
@[simp] theorem setPc_draws (t : Word) : (setPc s t).draws = s.draws := rfl

@[simp] theorem setIndex_mem (a : Word) : (setIndex s a).mem = s.mem := rfl
@[simp] theorem setIndex_v (a : Word) : (setIndex s a).v = s.v := rfl
@[simp] theorem setIndex_pc (a : Word) : (setIndex s a).pc = s.pc := rfl
@[simp] theorem setIndex_index (a : Word) : (setIndex s a).index = a := rfl
@[simp] theorem setIndex_stack (a : Word) : (setIndex s a).stack = s.stack := rfl
@[simp] theorem setIndex_dt (a : Word) : (setIndex s a).dt = s.dt := rfl
@[simp] theorem setIndex_st (a : Word) : (setIndex s a).st = s.st := rfl
@[simp] theorem setIndex_fb (a : Word) : (setIndex s a).fb = s.fb := rfl
@[simp] theorem setIndex_keys (a : Word) : (setIndex s a).keys = s.keys := rfl
@[simp] theorem setIndex_rnd (a : Word) : (setIndex s a).rnd = s.rnd := rfl
@[simp] theorem setIndex_draws (a : Word) : (setIndex s a).draws = s.draws := rfl

@[simp] theorem setMem_mem (m : Memory) : (setMem s m).mem = m := rfl
@[simp] theorem setMem_v (m : Memory) : (setMem s m).v = s.v := rfl
@[simp] theorem setMem_pc (m : Memory) : (setMem s m).pc = s.pc := rfl
@[simp] theorem setMem_index (m : Memory) : (setMem s m).index = s.index := rfl
@[simp] theorem setMem_stack (m : Memory) : (setMem s m).stack = s.stack := rfl
@[simp] theorem setMem_dt (m : Memory) : (setMem s m).dt = s.dt := rfl
@[simp] theorem setMem_st (m : Memory) : (setMem s m).st = s.st := rfl
@[simp] theorem setMem_fb (m : Memory) : (setMem s m).fb = s.fb := rfl
@[simp] theorem setMem_keys (m : Memory) : (setMem s m).keys = s.keys := rfl
@[simp] theorem setMem_rnd (m : Memory) : (setMem s m).rnd = s.rnd := rfl
@[simp] theorem setMem_draws (m : Memory) : (setMem s m).draws = s.draws := rfl

@[simp] theorem setStack_mem (l : List Word) : (setStack s l).mem = s.mem := rfl
@[simp] theorem setStack_v (l : List Word) : (setStack s l).v = s.v := rfl
@[simp] theorem setStack_pc (l : List Word) : (setStack s l).pc = s.pc := rfl
@[simp] theorem setStack_index (l : List Word) : (setStack s l).index = s.index := rfl
@[simp] theorem setStack_stack (l : List Word) : (setStack s l).stack = l := rfl
@[simp] theorem setStack_dt (l : List Word) : (setStack s l).dt = s.dt := rfl
@[simp] theorem setStack_st (l : List Word) : (setStack s l).st = s.st := rfl
@[simp] theorem setStack_fb (l : List Word) : (setStack s l).fb = s.fb := rfl
@[simp] theorem setStack_keys (l : List Word) : (setStack s l).keys = s.keys := rfl
@[simp] theorem setStack_rnd (l : List Word) : (setStack s l).rnd = s.rnd := rfl
@[simp] theorem setStack_draws (l : List Word) : (setStack s l).draws = s.draws := rfl

@[simp] theorem setDt_mem (b : Byte) : (setDt s b).mem = s.mem := rfl
@[simp] theorem setDt_v (b : Byte) : (setDt s b).v = s.v := rfl
@[simp] theorem setDt_pc (b : Byte) : (setDt s b).pc = s.pc := rfl
@[simp] theorem setDt_index (b : Byte) : (setDt s b).index = s.index := rfl
@[simp] theorem setDt_stack (b : Byte) : (setDt s b).stack = s.stack := rfl
@[simp] theorem setDt_dt (b : Byte) : (setDt s b).dt = b := rfl
@[simp] theorem setDt_st (b : Byte) : (setDt s b).st = s.st := rfl
@[simp] theorem setDt_fb (b : Byte) : (setDt s b).fb = s.fb := rfl
@[simp] theorem setDt_keys (b : Byte) : (setDt s b).keys = s.keys := rfl
@[simp] theorem setDt_rnd (b : Byte) : (setDt s b).rnd = s.rnd := rfl
@[simp] theorem setDt_draws (b : Byte) : (setDt s b).draws = s.draws := rfl

@[simp] theorem setSt_mem (b : Byte) : (setSt s b).mem = s.mem := rfl
@[simp] theorem setSt_v (b : Byte) : (setSt s b).v = s.v := rfl
@[simp] theorem setSt_pc (b : Byte) : (setSt s b).pc = s.pc := rfl
@[simp] theorem setSt_index (b : Byte) : (setSt s b).index = s.index := rfl
@[simp] theorem setSt_stack (b : Byte) : (setSt s b).stack = s.stack := rfl
@[simp] theorem setSt_dt (b : Byte) : (setSt s b).dt = s.dt := rfl
@[simp] theorem setSt_st (b : Byte) : (setSt s b).st = b := rfl
@[simp] theorem setSt_fb (b : Byte) : (setSt s b).fb = s.fb := rfl
@[simp] theorem setSt_keys (b : Byte) : (setSt s b).keys = s.keys := rfl
@[simp] theorem setSt_rnd (b : Byte) : (setSt s b).rnd = s.rnd := rfl
@[simp] theorem setSt_draws (b : Byte) : (setSt s b).draws = s.draws := rfl

@[simp] theorem setFb_mem (f : FrameBuffer) : (setFb s f).mem = s.mem := rfl
@[simp] theorem setFb_v (f : FrameBuffer) : (setFb s f).v = s.v := rfl
@[simp] theorem setFb_pc (f : FrameBuffer) : (setFb s f).pc = s.pc := rfl
@[simp] theorem setFb_index (f : FrameBuffer) : (setFb s f).index = s.index := rfl
@[simp] theorem setFb_stack (f : FrameBuffer) : (setFb s f).stack = s.stack := rfl
@[simp] theorem setFb_dt (f : FrameBuffer) : (setFb s f).dt = s.dt := rfl
@[simp] theorem setFb_st (f : FrameBuffer) : (setFb s f).st = s.st := rfl
@[simp] theorem setFb_fb (f : FrameBuffer) : (setFb s f).fb = f := rfl
@[simp] theorem setFb_keys (f : FrameBuffer) : (setFb s f).keys = s.keys := rfl
@[simp] theorem setFb_rnd (f : FrameBuffer) : (setFb s f).rnd = s.rnd := rfl
@[simp] theorem setFb_draws (f : FrameBuffer) : (setFb s f).draws = s.draws := rfl

@[simp] theorem setInputs_mem (k : Keypad) (r : Byte) : (setInputs s k r).mem = s.mem := rfl
@[simp] theorem setInputs_v (k : Keypad) (r : Byte) : (setInputs s k r).v = s.v := rfl
@[simp] theorem setInputs_pc (k : Keypad) (r : Byte) : (setInputs s k r).pc = s.pc := rfl
@[simp] theorem setInputs_index (k : Keypad) (r : Byte) : (setInputs s k r).index = s.index := rfl
@[simp] theorem setInputs_stack (k : Keypad) (r : Byte) : (setInputs s k r).stack = s.stack := rfl
@[simp] theorem setInputs_dt (k : Keypad) (r : Byte) : (setInputs s k r).dt = s.dt := rfl
@[simp] theorem setInputs_st (k : Keypad) (r : Byte) : (setInputs s k r).st = s.st := rfl
@[simp] theorem setInputs_fb (k : Keypad) (r : Byte) : (setInputs s k r).fb = s.fb := rfl
@[simp] theorem setInputs_keys (k : Keypad) (r : Byte) : (setInputs s k r).keys = k := rfl
@[simp] theorem setInputs_rnd (k : Keypad) (r : Byte) : (setInputs s k r).rnd = r := rfl
@[simp] theorem setInputs_draws (k : Keypad) (r : Byte) : (setInputs s k r).draws = s.draws := rfl

@[simp] theorem writeReg_mem (x : Reg) (b : Byte) : (writeReg s x b).mem = s.mem := rfl
@[simp] theorem writeReg_v (x : Reg) (b : Byte) : (writeReg s x b).v = s.v.set x.val b := rfl
@[simp] theorem writeReg_pc (x : Reg) (b : Byte) : (writeReg s x b).pc = s.pc := rfl
@[simp] theorem writeReg_index (x : Reg) (b : Byte) : (writeReg s x b).index = s.index := rfl
@[simp] theorem writeReg_stack (x : Reg) (b : Byte) : (writeReg s x b).stack = s.stack := rfl
@[simp] theorem writeReg_dt (x : Reg) (b : Byte) : (writeReg s x b).dt = s.dt := rfl
@[simp] theorem writeReg_st (x : Reg) (b : Byte) : (writeReg s x b).st = s.st := rfl
@[simp] theorem writeReg_fb (x : Reg) (b : Byte) : (writeReg s x b).fb = s.fb := rfl
@[simp] theorem writeReg_keys (x : Reg) (b : Byte) : (writeReg s x b).keys = s.keys := rfl
@[simp] theorem writeReg_rnd (x : Reg) (b : Byte) : (writeReg s x b).rnd = s.rnd := rfl
@[simp] theorem writeReg_draws (x : Reg) (b : Byte) : (writeReg s x b).draws = s.draws := rfl

@[simp] theorem advancePc_mem : (advancePc s).mem = s.mem := rfl
@[simp] theorem advancePc_v : (advancePc s).v = s.v := rfl
@[simp] theorem advancePc_pc : (advancePc s).pc = s.pc + 2 := rfl
@[simp] theorem advancePc_index : (advancePc s).index = s.index := rfl
@[simp] theorem advancePc_stack : (advancePc s).stack = s.stack := rfl
@[simp] theorem advancePc_dt : (advancePc s).dt = s.dt := rfl
@[simp] theorem advancePc_st : (advancePc s).st = s.st := rfl
@[simp] theorem advancePc_fb : (advancePc s).fb = s.fb := rfl
@[simp] theorem advancePc_keys : (advancePc s).keys = s.keys := rfl
@[simp] theorem advancePc_rnd : (advancePc s).rnd = s.rnd := rfl
@[simp] theorem advancePc_draws : (advancePc s).draws = s.draws := rfl

@[simp] theorem drawInputs_mem : (drawInputs s).mem = s.mem := rfl
@[simp] theorem drawInputs_v : (drawInputs s).v = s.v := rfl
@[simp] theorem drawInputs_pc : (drawInputs s).pc = s.pc := rfl
@[simp] theorem drawInputs_index : (drawInputs s).index = s.index := rfl
@[simp] theorem drawInputs_stack : (drawInputs s).stack = s.stack := rfl
@[simp] theorem drawInputs_dt : (drawInputs s).dt = s.dt := rfl
@[simp] theorem drawInputs_st : (drawInputs s).st = s.st := rfl
@[simp] theorem drawInputs_fb : (drawInputs s).fb = s.fb := rfl
@[simp] theorem drawInputs_keys : (drawInputs s).keys = Config.hostKeys s.draws := rfl
@[simp] theorem drawInputs_rnd : (drawInputs s).rnd = Config.hostRnd s.draws := rfl
@[simp] theorem drawInputs_draws : (drawInputs s).draws = s.draws + 1 := rfl

/-- Two states with equal fields are equal. -/
theorem state_ext {s t : State} (hm : s.mem = t.mem) (hv : s.v = t.v) (hp : s.pc = t.pc)
    (hi : s.index = t.index) (hs : s.stack = t.stack) (hd : s.dt = t.dt) (ht : s.st = t.st)
    (hf : s.fb = t.fb) (hk : s.keys = t.keys) (hr : s.rnd = t.rnd) (hn : s.draws = t.draws) : s = t := by
  cases s
  cases t
  simp_all

end Sys2Proof.Machine
end

