-- ==== Sys2Proof/Laws/Memory.lean ====
section
/-! SUPPORT. Memory: reads after writes, the canonical form, and what each operation does. -/

namespace Sys2Proof.Machine

theorem memWfFrom_cons {lo b : Nat} {w : Byte} {m : Memory} :
    memWfFrom lo ((b, w) :: m) = true ↔
      lo ≤ b ∧ b < Config.memSize ∧ w ≠ 0 ∧ memWfFrom (b + 1) m = true := by
  simp [memWfFrom, and_assoc]

theorem memWfFrom_mono {lo lo' : Nat} (h : lo' ≤ lo) :
    ∀ {m : Memory}, memWfFrom lo m = true → memWfFrom lo' m = true
  | [], _ => rfl
  | (_, _) :: _, hm => by
    obtain ⟨h1, h2⟩ := memWfFrom_cons.mp hm
    exact memWfFrom_cons.mpr ⟨h.trans h1, h2⟩

/-- Nothing is listed below the bound of the canonical form. -/
theorem memRead_below {lo a : Nat} (h : a < lo) :
    ∀ {m : Memory}, memWfFrom lo m = true → memRead m a = 0
  | [], _ => rfl
  | (b, w) :: m, hm => by
    obtain ⟨h1, _, _, h4⟩ := memWfFrom_cons.mp hm
    have hne : a ≠ b := by omega
    simp only [memRead, hne, if_false]
    exact memRead_below (by omega) h4

/-- Past the memory's end nothing is listed. -/
theorem memRead_above {lo a : Nat} (h : Config.memSize ≤ a) :
    ∀ {m : Memory}, memWfFrom lo m = true → memRead m a = 0
  | [], _ => rfl
  | (b, w) :: m, hm => by
    obtain ⟨_, h2, _, h4⟩ := memWfFrom_cons.mp hm
    have hne : a ≠ b := by omega
    simp only [memRead, hne, if_false]
    exact memRead_above h h4

theorem memWfFrom_write {lo a : Nat} (v : Byte) (hlo : lo ≤ a) (ha : a < Config.memSize) :
    ∀ {m : Memory}, memWfFrom lo m = true → memWfFrom lo (memWrite m a v) = true
  | [], _ => by
    by_cases hv : v = 0
    · simp [memWrite, hv, memWfFrom]
    · simp only [memWrite, hv, if_false]
      exact memWfFrom_cons.mpr ⟨hlo, ha, hv, rfl⟩
  | (b, w) :: m, hm => by
    obtain ⟨h1, h2, h3, h4⟩ := memWfFrom_cons.mp hm
    simp only [memWrite]
    split
    next hab =>
      split
      · exact hm
      next hv => exact memWfFrom_cons.mpr ⟨hlo, ha, hv, memWfFrom_cons.mpr ⟨hab, h2, h3, h4⟩⟩
    next hab =>
      split
      next hEq =>
        subst hEq
        split
        · exact memWfFrom_mono (by omega) h4
        next hv => exact memWfFrom_cons.mpr ⟨h1, h2, hv, h4⟩
      next hne =>
        exact memWfFrom_cons.mpr ⟨h1, h2, h3, memWfFrom_write v (by omega) ha h4⟩

/-- A write inside the memory keeps the canonical form. -/
theorem memWrite_wf {m : Memory} {a : Nat} (v : Byte) (ha : a < Config.memSize) (h : Memory.wf m = true) :
    Memory.wf (memWrite m a v) = true :=
  memWfFrom_write v (Nat.zero_le a) ha h

theorem memRead_write_from {lo a : Nat} (v : Byte) (c : Nat) :
    ∀ {m : Memory}, memWfFrom lo m = true →
      memRead (memWrite m a v) c = if c = a then v else memRead m c
  | [], _ => by
    simp only [memWrite]
    split
    next hv => simp [memRead, hv]
    next => simp [memRead]
  | (b, w) :: m, hm => by
    obtain ⟨h1, h2, h3, h4⟩ := memWfFrom_cons.mp hm
    simp only [memWrite]
    split
    next hab =>
      split
      next hv =>
        by_cases hc : c = a
        · subst hc
          have hne : c ≠ b := by omega
          simp only [memRead, hne, if_false, if_true, hv]
          exact memRead_below (by omega) h4
        · simp [hc]
      next hv => simp [memRead]
    next hab =>
      split
      next hEq =>
        subst hEq
        split
        next hv =>
          by_cases hc : c = a
          · subst hc
            simp only [if_true, hv]
            exact memRead_below (by omega) h4
          · simp [memRead, hc]
        next hv =>
          by_cases hc : c = a <;> simp [memRead, hc]
      next hne =>
        by_cases hcb : c = b
        · subst hcb
          have : c ≠ a := fun h => hne h.symm
          simp [memRead, this]
        · simp only [memRead, hcb, if_false]
          exact memRead_write_from v c h4

/-- Reading after a write: the byte written at its address, every other byte as before. -/
theorem memRead_memWrite {m : Memory} {a : Nat} (v : Byte) (c : Nat) (h : Memory.wf m = true) :
    memRead (memWrite m a v) c = if c = a then v else memRead m c :=
  memRead_write_from v c h

/-- A run of writes inside the memory keeps the canonical form. -/
theorem memWriteList_wf : ∀ {vs : List Byte} {m : Memory} {a : Nat},
    a + vs.length ≤ Config.memSize → Memory.wf m = true → Memory.wf (memWriteList m a vs) = true
  | [], _, _, _, h => h
  | v :: vs, m, a, hlen, h => by
    simp only [List.length_cons] at hlen
    exact memWriteList_wf (vs := vs) (by omega) (memWrite_wf v (by omega) h)

/-- Reading after a run of writes: the listed bytes from the base up, every other byte as before. -/
theorem memRead_memWriteList (c : Nat) : ∀ {vs : List Byte} {m : Memory} {a : Nat},
    a + vs.length ≤ Config.memSize → Memory.wf m = true →
      memRead (memWriteList m a vs) c =
        if a ≤ c ∧ c < a + vs.length then vs.getD (c - a) 0 else memRead m c
  | [], m, a, _, h => by
    have : ¬ (a ≤ c ∧ c < a + 0) := by omega
    simp only [memWriteList, List.length_nil, this, if_false]
  | v :: vs, m, a, hlen, h => by
    simp only [List.length_cons] at hlen
    have ih := memRead_memWriteList c (vs := vs) (m := memWrite m a v) (a := a + 1) (by omega)
      (memWrite_wf v (by omega) h)
    rw [memWriteList, ih, memRead_memWrite v c h]
    simp only [List.length_cons]
    by_cases hca : c = a
    · subst hca
      have h2 : c ≤ c ∧ c < c + (vs.length + 1) := by omega
      simp [h2]
    · by_cases hin : a ≤ c ∧ c < a + (vs.length + 1)
      · have h1 : a + 1 ≤ c ∧ c < a + 1 + vs.length := by omega
        have h3 : c - a = (c - (a + 1)) + 1 := by omega
        simp [h1, hin, h3]
      · have h1 : ¬ (a + 1 ≤ c ∧ c < a + 1 + vs.length) := by omega
        simp only [h1, hin, hca, if_false]

theorem memReadList_length (m : Memory) (a k : Nat) : (memReadList m a k).length = k := by
  simp [memReadList]

/-- The bytes read in a run are the bytes at the ascending addresses. -/
theorem memReadList_getD (m : Memory) (a : Nat) {k j : Nat} (h : j < k) :
    (memReadList m a k).getD j 0 = memRead m (a + j) := by
  simp [memReadList, List.getD, h]

theorem wf_ext_from : ∀ {m n : Memory} {lo : Nat}, memWfFrom lo m = true → memWfFrom lo n = true →
    (∀ a, memRead m a = memRead n a) → m = n
  | [], [], _, _, _, _ => rfl
  | [], (b, w) :: n, _, _, hn, he => by
    obtain ⟨_, _, h3, _⟩ := memWfFrom_cons.mp hn
    have := he b
    simp [memRead] at this
    exact absurd this.symm h3
  | (b, w) :: m, [], _, hm, _, he => by
    obtain ⟨_, _, h3, _⟩ := memWfFrom_cons.mp hm
    have := he b
    simp [memRead] at this
    exact absurd this h3
  | (b, w) :: m, (c, u) :: n, lo, hm, hn, he => by
    obtain ⟨_, _, hw, hm4⟩ := memWfFrom_cons.mp hm
    obtain ⟨_, _, hu, hn4⟩ := memWfFrom_cons.mp hn
    have hbc : b = c := by
      rcases Nat.lt_trichotomy b c with hlt | heq | hgt
      · have h := he b
        have hne : b ≠ c := by omega
        simp only [memRead, hne, if_false, if_true] at h
        exact absurd (h.trans (memRead_below (by omega) hn4)) hw
      · exact heq
      · have h := he c
        have hne : c ≠ b := by omega
        simp only [memRead, hne, if_false, if_true] at h
        exact absurd (h.symm.trans (memRead_below (by omega) hm4)) hu
    subst hbc
    have hwu : w = u := by
      have h := he b
      simpa [memRead] using h
    subst hwu
    have htail : m = n := by
      refine wf_ext_from hm4 hn4 fun a => ?_
      by_cases hab : a = b
      · subst hab
        rw [memRead_below (by omega) hm4, memRead_below (by omega) hn4]
      · have h := he a
        simpa [memRead, hab] using h
    rw [htail]

/-- Two memories in canonical form that read the same everywhere are the same data. -/
theorem memory_ext {m n : Memory} (hm : Memory.wf m = true) (hn : Memory.wf n = true)
    (he : ∀ a, memRead m a = memRead n a) : m = n :=
  wf_ext_from hm hn he

theorem reset_memory_wf : Memory.wf State.reset.mem = true := rfl

theorem memReadChecked_ok {m : Memory} {a : Nat} (h : a < Config.memSize) :
    memReadChecked m a = .ok (memRead m a) := by
  simp [memReadChecked, inBounds, h]

theorem memReadChecked_error {m : Memory} {a : Nat} (h : Config.memSize ≤ a) :
    memReadChecked m a = .error a := by
  have : ¬ a < Config.memSize := by omega
  simp [memReadChecked, inBounds, this]

/-- The whole-range test passes exactly when the range is empty or ends inside the memory. -/
theorem rangeFault_none {base k : Nat} :
    rangeFault base k = none ↔ k = 0 ∨ base + k ≤ Config.memSize := by
  unfold rangeFault
  split
  next h => exact ⟨fun _ => h, fun _ => rfl⟩
  next h => exact ⟨fun h' => by simp at h', fun h' => absurd h' h⟩

/-- When the whole-range test fails it names the lowest address out of range. -/
theorem rangeFault_some {base k a : Nat} :
    rangeFault base k = some a ↔
      k ≠ 0 ∧ Config.memSize < base + k ∧ a = max base Config.memSize := by
  unfold rangeFault
  split
  next h => simp only [reduceCtorEq, false_iff]; omega
  next h =>
    simp only [Option.some.injEq]
    constructor
    · intro h'
      exact ⟨by omega, by omega, h'.symm⟩
    · rintro ⟨_, _, h'⟩
      exact h'.symm

end Sys2Proof.Machine
end

