-- ==== Sys2Proof/Laws/Ops.lean ====
section
/-! SUPPORT. Registers, the call stack, skips, faults and flags: what each shared operation does. -/

namespace Sys2Proof.Machine

variable (s : State)

/-- Reading a register after a register write. -/
theorem readReg_writeReg (x j : Reg) (b : Byte) :
    readReg (writeReg s x b) j = if j = x then b else readReg s j := by
  simp only [readReg, writeReg_v, Vector.getElem_set, Fin.ext_iff, eq_comm]

@[simp] theorem readReg_writeReg_same (x : Reg) (b : Byte) : readReg (writeReg s x b) x = b := by
  simp [readReg_writeReg]

@[simp] theorem readReg_setPc (t : Word) (j : Reg) : readReg (setPc s t) j = readReg s j := rfl
@[simp] theorem readReg_setIndex (a : Word) (j : Reg) : readReg (setIndex s a) j = readReg s j := rfl
@[simp] theorem readReg_setMem (m : Memory) (j : Reg) : readReg (setMem s m) j = readReg s j := rfl
@[simp] theorem readReg_setStack (l : List Word) (j : Reg) : readReg (setStack s l) j = readReg s j := rfl
@[simp] theorem readReg_setDt (b : Byte) (j : Reg) : readReg (setDt s b) j = readReg s j := rfl
@[simp] theorem readReg_setSt (b : Byte) (j : Reg) : readReg (setSt s b) j = readReg s j := rfl
@[simp] theorem readReg_setFb (f : FrameBuffer) (j : Reg) : readReg (setFb s f) j = readReg s j := rfl
@[simp] theorem readReg_advancePc (j : Reg) : readReg (advancePc s) j = readReg s j := rfl
@[simp] theorem readReg_drawInputs (j : Reg) : readReg (drawInputs s) j = readReg s j := rfl
@[simp] theorem readReg_setInputs (k : Keypad) (r : Byte) (j : Reg) :
    readReg (setInputs s k r) j = readReg s j := rfl

/-- A result and its flag: VF holds the flag, the destination (if it is another register) the result,
and every other register is as before. -/
theorem readReg_writeRegFlag (x j : Reg) (b flag : Byte) :
    readReg (writeRegFlag s x b flag) j = if j = vf then flag else if j = x then b else readReg s j := by
  simp only [writeRegFlag, readReg_writeReg]

@[simp] theorem writeRegFlag_mem (x : Reg) (b f : Byte) : (writeRegFlag s x b f).mem = s.mem := rfl
@[simp] theorem writeRegFlag_pc (x : Reg) (b f : Byte) : (writeRegFlag s x b f).pc = s.pc := rfl
@[simp] theorem writeRegFlag_index (x : Reg) (b f : Byte) : (writeRegFlag s x b f).index = s.index := rfl
@[simp] theorem writeRegFlag_stack (x : Reg) (b f : Byte) : (writeRegFlag s x b f).stack = s.stack := rfl
@[simp] theorem writeRegFlag_dt (x : Reg) (b f : Byte) : (writeRegFlag s x b f).dt = s.dt := rfl
@[simp] theorem writeRegFlag_st (x : Reg) (b f : Byte) : (writeRegFlag s x b f).st = s.st := rfl
@[simp] theorem writeRegFlag_fb (x : Reg) (b f : Byte) : (writeRegFlag s x b f).fb = s.fb := rfl
@[simp] theorem writeRegFlag_keys (x : Reg) (b f : Byte) : (writeRegFlag s x b f).keys = s.keys := rfl
@[simp] theorem writeRegFlag_rnd (x : Reg) (b f : Byte) : (writeRegFlag s x b f).rnd = s.rnd := rfl
@[simp] theorem writeRegFlag_draws (x : Reg) (b f : Byte) : (writeRegFlag s x b f).draws = s.draws := rfl

/-- A skip adds 2 to the advanced `pc` when its condition holds and changes nothing else. -/
theorem skipIf_eq (c : Bool) : skipIf c s = setPc s (if c then s.pc + 2 else s.pc) := by
  cases c <;> rfl

/-- Writing bytes into registers from number `k` up changes the register file alone. -/
theorem writeRegsFrom_eq : ∀ (bs : List Byte) (s : State) (k : Nat),
    writeRegsFrom s k bs = { s with v := (writeRegsFrom s k bs).v }
  | [], _, _ => rfl
  | b :: bs, s, k => by
    rw [writeRegsFrom, writeRegsFrom_eq bs]

/-- The registers after writing bytes into them depend on the registers alone. -/
theorem writeRegsFrom_v_congr : ∀ (bs : List Byte) (s t : State) (k : Nat), s.v = t.v →
    (writeRegsFrom s k bs).v = (writeRegsFrom t k bs).v
  | [], _, _, _, h => h
  | _ :: bs, _, _, k, h => writeRegsFrom_v_congr bs _ _ (k + 1) (by simp only [h])

@[simp] theorem writeRegsFrom_mem (bs : List Byte) (k : Nat) : (writeRegsFrom s k bs).mem = s.mem := by
  rw [writeRegsFrom_eq]
@[simp] theorem writeRegsFrom_pc (bs : List Byte) (k : Nat) : (writeRegsFrom s k bs).pc = s.pc := by
  rw [writeRegsFrom_eq]
@[simp] theorem writeRegsFrom_index (bs : List Byte) (k : Nat) : (writeRegsFrom s k bs).index = s.index := by
  rw [writeRegsFrom_eq]
@[simp] theorem writeRegsFrom_stack (bs : List Byte) (k : Nat) : (writeRegsFrom s k bs).stack = s.stack := by
  rw [writeRegsFrom_eq]
@[simp] theorem writeRegsFrom_dt (bs : List Byte) (k : Nat) : (writeRegsFrom s k bs).dt = s.dt := by
  rw [writeRegsFrom_eq]
@[simp] theorem writeRegsFrom_st (bs : List Byte) (k : Nat) : (writeRegsFrom s k bs).st = s.st := by
  rw [writeRegsFrom_eq]
@[simp] theorem writeRegsFrom_fb (bs : List Byte) (k : Nat) : (writeRegsFrom s k bs).fb = s.fb := by
  rw [writeRegsFrom_eq]
@[simp] theorem writeRegsFrom_keys (bs : List Byte) (k : Nat) : (writeRegsFrom s k bs).keys = s.keys := by
  rw [writeRegsFrom_eq]
@[simp] theorem writeRegsFrom_rnd (bs : List Byte) (k : Nat) : (writeRegsFrom s k bs).rnd = s.rnd := by
  rw [writeRegsFrom_eq]
@[simp] theorem writeRegsFrom_draws (bs : List Byte) (k : Nat) : (writeRegsFrom s k bs).draws = s.draws := by
  rw [writeRegsFrom_eq]

/-- Reading a register after a run of register writes: the listed bytes from number `k` up, every other
register as before. -/
theorem readReg_writeRegsFrom (j : Reg) : ∀ (bs : List Byte) (s : State) (k : Nat),
    readReg (writeRegsFrom s k bs) j =
      if k ≤ j.val ∧ j.val < k + bs.length then bs.getD (j.val - k) 0 else readReg s j
  | [], s, k => by
    have : ¬ (k ≤ j.val ∧ j.val < k + 0) := by omega
    simp only [writeRegsFrom, List.length_nil, this, if_false]
  | b :: bs, s, k => by
    rw [writeRegsFrom, readReg_writeRegsFrom j bs]
    simp only [List.length_cons, readReg, Vector.getElem_setIfInBounds]
    rcases Nat.lt_trichotomy j.val k with h | h | h
    · have h1 : ¬ (k + 1 ≤ j.val ∧ j.val < k + 1 + bs.length) := by omega
      have h2 : ¬ (k ≤ j.val ∧ j.val < k + (bs.length + 1)) := by omega
      have h3 : k ≠ j.val := by omega
      simp only [h1, h2, h3, if_false]
    · have h1 : ¬ (k + 1 ≤ j.val ∧ j.val < k + 1 + bs.length) := by omega
      have h2 : k ≤ j.val ∧ j.val < k + (bs.length + 1) := by omega
      have h3 : j.val - k = 0 := by omega
      rw [if_neg h1, if_pos h2, if_pos h.symm, h3, List.getD_cons_zero]
    · have h3 : k ≠ j.val := by omega
      by_cases hin : j.val < k + (bs.length + 1)
      · have h1 : k + 1 ≤ j.val ∧ j.val < k + 1 + bs.length := by omega
        have h2 : k ≤ j.val ∧ j.val < k + (bs.length + 1) := by omega
        have h4 : j.val - k = (j.val - (k + 1)) + 1 := by omega
        rw [if_pos h1, if_pos h2, h4, List.getD_cons_succ]
      · have h1 : ¬ (k + 1 ≤ j.val ∧ j.val < k + 1 + bs.length) := by omega
        have h2 : ¬ (k ≤ j.val ∧ j.val < k + (bs.length + 1)) := by omega
        rw [if_neg h1, if_neg h2, if_neg h3]

theorem readRegsTo_length (x : Reg) : (readRegsTo s x).length = x.val + 1 := by
  simp [readRegsTo]

/-- The registers up to `V[x]` in ascending order. -/
theorem readRegsTo_getD {x : Reg} {j : Nat} (h : j ≤ x.val) :
    (readRegsTo s x).getD j 0 = readReg s ⟨j, by omega⟩ := by
  have h1 : j < x.val + 1 := by omega
  simp [readRegsTo, List.getD, readReg, h1]

/-- A push succeeds exactly when fewer than sixteen entries are held, and puts the value on top. -/
theorem push_eq_some {t : Word} {s' : State} :
    push s t = some s' ↔ sp s < Config.stackDepth ∧ s' = setStack s (t :: s.stack) := by
  unfold push
  split
  next h => exact ⟨fun e => ⟨h, (Option.some.inj e).symm⟩, fun e => congrArg some e.2.symm⟩
  next h => simp [h]

theorem push_eq_none {t : Word} : push s t = none ↔ ¬ sp s < Config.stackDepth := by
  unfold push
  split <;> simp_all

/-- A pop takes the last pushed value off. -/
theorem pop_eq_some {t : Word} {s' : State} :
    pop s = some (t, s') ↔ ∃ rest, s.stack = t :: rest ∧ s' = setStack s rest := by
  unfold pop
  split
  next h => simp [h]
  next u rest h =>
    simp only [Option.some.injEq, Prod.mk.injEq, h, List.cons.injEq]
    constructor
    · rintro ⟨rfl, rfl⟩
      exact ⟨rest, ⟨rfl, rfl⟩, rfl⟩
    · rintro ⟨r, ⟨rfl, rfl⟩, rfl⟩
      exact ⟨rfl, rfl⟩

theorem pop_eq_none : pop s = none ↔ s.stack = [] := by
  unfold pop
  split <;> simp_all

/-- Raising a fault ends in that fault, its state left being the one execute began with. -/
theorem raise_eq (fault : FaultReport → Fault) (i : Instr) (info : Nat) :
    raise fault i info s = .fault (fault ⟨s.pc - 2, encode i, info, s⟩) := rfl

@[simp] theorem faultReport_mapFault (f : State → State) (e : Fault) :
    faultReport (mapFault f e) = mapReport f (faultReport e) := by
  cases e <;> rfl

@[simp] theorem faultCode_mapFault (f : State → State) (e : Fault) :
    faultCode (mapFault f e) = faultCode e := by
  cases e <;> rfl

/-- A mapped outcome is a next state exactly when the outcome is. -/
theorem mapResult_eq_next {f : State → State} {r : Result} {t : State} :
    mapResult f r = .next t ↔ ∃ u, r = .next u ∧ t = f u := by
  cases r <;> simp [mapResult, eq_comm]

theorem flagByte_toNat (c : Bool) : (flagByte c).toNat = if c then 1 else 0 := by
  cases c <;> rfl

/-- The least key down: it is down and every lower key is up. -/
theorem lowestKey_some {keys : Keypad} {k : Nat} :
    lowestKey keys = some k ↔
      k < 16 ∧ keyDown keys k = true ∧ ∀ j, j < k → keyDown keys j = false := by
  unfold lowestKey
  rw [List.find?_range_eq_some]
  simp only [List.mem_range, Bool.not_eq_true', and_left_comm]

theorem lowestKey_none {keys : Keypad} :
    lowestKey keys = none ↔ ∀ k, k < 16 → keyDown keys k = false := by
  simp [lowestKey, List.find?_eq_none]

/-- The key flag of a key the keypad has. -/
theorem keyDown_eq (keys : Keypad) {k : Nat} (h : k < 16) : keyDown keys k = keys[k] := by
  simp [keyDown, h]

end Sys2Proof.Machine
end

