-- ==== Sys2Proof/Laws/Display.lean ====
section
/-! SUPPORT. Pixels and the draw: what drawing a row and drawing a sprite do to every pixel. -/

namespace Sys2Proof.Machine

/-- Reading a pixel after one is set, inside the grid. -/
theorem pixel_setPixel (f : FrameBuffer) {x y : Nat} (hx : x < 64) (hy : y < 32) (b : Bool) (px py : Nat) :
    pixel (setPixel f x y b) px py = if px = x ∧ py = y then b else pixel f px py := by
  have hrow : f[y]? = some f[y] := by simp [hy]
  by_cases hpy : py = y
  · subst hpy
    by_cases hpx : px = x
    · subst hpx
      simp [pixel, setPixel, hy, hx]
    · have : ¬ x = px := fun h => hpx h.symm
      simp [pixel, setPixel, hy, hpx, this]
  · have : ¬ y = py := fun h => hpy h.symm
    simp [pixel, setPixel, hrow, hpy, this]

/-- No pixel lies outside the grid. -/
theorem pixel_outside (f : FrameBuffer) {x y : Nat} (h : ¬ (x < 64 ∧ y < 32)) : pixel f x y = false := by
  unfold pixel
  by_cases hy : y < 32
  · have hx : ¬ x < 64 := fun hx => h ⟨hx, hy⟩
    simp [hy, hx]
  · simp [hy]

/-- Two framebuffers with the same pixels are the same data. -/
theorem frame_ext {f g : FrameBuffer} (h : ∀ x y, x < 64 → y < 32 → pixel f x y = pixel g x y) : f = g := by
  apply Vector.ext
  intro y hy
  apply Vector.ext
  intro x hx
  have := h x y hx hy
  simpa [pixel, hx, hy] using this

theorem pixel_flipPixel (d : Drawing) {x y : Nat} (hx : x < 64) (hy : y < 32) (px py : Nat) :
    pixel (flipPixel d x y).fb px py = (pixel d.fb px py ^^ decide (px = x ∧ py = y)) := by
  rw [flipPixel, pixel_setPixel _ hx hy]
  by_cases h : px = x ∧ py = y
  · simp [h]
  · simp [h]

/-- Whether bit column `c` of the sprite byte, `c` in `cs`, lands on pixel (`px`, `py`). -/
def columnHits (x0 y : Nat) (row : Byte) (cs : List Nat) (px py : Nat) : Bool :=
  decide (py = y) && cs.any fun c => decide (px = x0 + c) && row.getLsbD (7 - c)

/-- Drawing ascending columns of a row flips exactly the pixels hit inside the grid and notes a
collision exactly when one of them was set. -/
theorem drawColumns_spec {x0 y : Nat} (row : Byte) (hy : y < 32) :
    ∀ (cs : List Nat) (d : Drawing), cs.Pairwise (· < ·) →
      (∀ px py, px < 64 → pixel (drawColumns x0 y row cs d).fb px py =
        (pixel d.fb px py ^^ columnHits x0 y row cs px py)) ∧
      ((drawColumns x0 y row cs d).collision = true ↔
        d.collision = true ∨ ∃ px py, px < 64 ∧ pixel d.fb px py = true ∧ columnHits x0 y row cs px py = true)
  | [], d, _ => by simp [drawColumns, columnHits]
  | c :: cs, d, hp => by
    rw [List.pairwise_cons] at hp
    obtain ⟨hc, hp⟩ := hp
    unfold drawColumns
    split
    next hout =>
      have hno : ∀ px py, px < 64 → columnHits x0 y row (c :: cs) px py = false := by
        intro px py hpx
        simp only [columnHits, Bool.and_eq_false_iff, List.any_eq_false, Bool.and_eq_true,
          decide_eq_true_eq, not_and]
        right
        intro c' hc' hpx'
        rcases List.mem_cons.mp hc' with rfl | hm
        · omega
        · have := hc c' hm
          omega
      constructor
      · intro px py hpx
        simp [hno px py hpx]
      · constructor
        · exact Or.inl
        · rintro (h | ⟨px, py, hpx, _, hh⟩)
          · exact h
          · simp [hno px py hpx] at hh
    next hin =>
      have hnotin : ∀ py, columnHits x0 y row cs (x0 + c) py = false := by
        intro py
        simp only [columnHits, Bool.and_eq_false_iff, List.any_eq_false, Bool.and_eq_true,
          decide_eq_true_eq, not_and]
        right
        intro c' hc' he
        have := hc c' hc'
        omega
      by_cases hb : row.getLsbD (7 - c) = true
      · rw [if_pos hb]
        obtain ⟨ih1, ih2⟩ := drawColumns_spec (x0 := x0) row hy cs (flipPixel d (x0 + c) y) hp
        have hcons : ∀ px py, columnHits x0 y row (c :: cs) px py =
            (decide (px = x0 + c ∧ py = y) ^^ columnHits x0 y row cs px py) := by
          intro px py
          by_cases hpx : px = x0 + c
          · subst hpx
            rw [hnotin, Bool.xor_false]
            simp [columnHits, hb]
          · simp [columnHits, hpx]
        constructor
        · intro px py hpx
          rw [ih1 px py hpx, pixel_flipPixel d (by omega) hy, hcons, Bool.xor_assoc]
        · rw [ih2]
          constructor
          · rintro (h | ⟨px, py, hpx, h1, h2⟩)
            · simp only [flipPixel, Bool.or_eq_true] at h
              rcases h with h | h
              · exact Or.inl h
              · exact Or.inr ⟨x0 + c, y, by omega, h, by rw [hcons, hnotin]; simp⟩
            · have hne : ¬ (px = x0 + c ∧ py = y) := by
                rintro ⟨rfl, rfl⟩
                simp [hnotin] at h2
              rw [pixel_flipPixel d (by omega) hy] at h1
              exact Or.inr ⟨px, py, hpx, by simpa [hne] using h1, by rw [hcons]; simp [hne, h2]⟩
          · rintro (h | ⟨px, py, hpx, h1, h2⟩)
            · exact Or.inl (by simp [flipPixel, h])
            · rw [hcons] at h2
              by_cases he : px = x0 + c ∧ py = y
              · obtain ⟨rfl, rfl⟩ := he
                exact Or.inl (by simp [flipPixel, h1])
              · refine Or.inr ⟨px, py, hpx, ?_, by simpa [he] using h2⟩
                rw [pixel_flipPixel d (by omega) hy]
                simp [he, h1]
      · rw [if_neg hb]
        have hcons : ∀ px py, columnHits x0 y row (c :: cs) px py = columnHits x0 y row cs px py := by
          intro px py
          simp [columnHits, hb]
        obtain ⟨ih1, ih2⟩ := drawColumns_spec (x0 := x0) row hy cs d hp
        simp only [hcons]
        exact ⟨ih1, ih2⟩

/-- Whether a sprite's set bit lands on pixel (`px`, `py`): the mask `M` of spec/43_display.md R162, the
sprite's first row being drawn at row `y0`. -/
def spriteHits (x0 y0 : Nat) (rows : List Byte) (px py : Nat) : Bool :=
  decide (x0 ≤ px ∧ px < x0 + 8 ∧ y0 ≤ py ∧ py < y0 + rows.length)
    && (rows.getD (py - y0) 0).getLsbD (7 - (px - x0))

theorem columnHits_range (x0 y : Nat) (row : Byte) (px py : Nat) :
    columnHits x0 y row (List.range 8) px py =
      (decide (py = y) && decide (x0 ≤ px ∧ px < x0 + 8) && row.getLsbD (7 - (px - x0))) := by
  rw [Bool.eq_iff_iff]
  simp only [columnHits, Bool.and_eq_true, decide_eq_true_eq, List.any_eq_true, List.mem_range]
  constructor
  · rintro ⟨h, c, hc, rfl, hb⟩
    refine ⟨⟨h, by omega, by omega⟩, ?_⟩
    have : x0 + c - x0 = c := by omega
    rwa [this]
  · rintro ⟨⟨h, h1, h2⟩, hb⟩
    exact ⟨h, px - x0, by omega, by omega, hb⟩

theorem spriteHits_cons (x0 y0 : Nat) (row : Byte) (rows : List Byte) (px py : Nat) :
    spriteHits x0 y0 (row :: rows) px py =
      (columnHits x0 y0 row (List.range 8) px py ^^ spriteHits x0 (y0 + 1) rows px py) := by
  rw [columnHits_range]
  by_cases hy : py = y0
  · subst hy
    have h1 : ¬ (py + 1 ≤ py) := by omega
    by_cases hx : x0 ≤ px ∧ px < x0 + 8
    · simp [spriteHits, hx]
    · simp [spriteHits, hx]
  · have hiff : (x0 ≤ px ∧ px < x0 + 8 ∧ y0 ≤ py ∧ py < y0 + (rows.length + 1)) ↔
        (x0 ≤ px ∧ px < x0 + 8 ∧ y0 + 1 ≤ py ∧ py < y0 + 1 + rows.length) := by omega
    simp only [spriteHits, List.length_cons, hiff, hy, decide_false, Bool.false_and, Bool.false_xor]
    by_cases hin : x0 ≤ px ∧ px < x0 + 8 ∧ y0 + 1 ≤ py ∧ py < y0 + 1 + rows.length
    · have : py - y0 = (py - (y0 + 1)) + 1 := by omega
      rw [this, List.getD_cons_succ]
    · rw [decide_eq_false hin, Bool.false_and, Bool.false_and]

/-- Drawing a sprite flips exactly the pixels its set bits hit inside the grid, and notes a collision
exactly when one of them was set. -/
theorem drawRows_spec (x0 : Nat) : ∀ (rows : List Byte) (y0 : Nat) (d : Drawing),
    (∀ px py, px < 64 → py < 32 → pixel (drawRows x0 y0 rows d).fb px py =
      (pixel d.fb px py ^^ spriteHits x0 y0 rows px py)) ∧
    ((drawRows x0 y0 rows d).collision = true ↔
      d.collision = true ∨
        ∃ px py, px < 64 ∧ py < 32 ∧ pixel d.fb px py = true ∧ spriteHits x0 y0 rows px py = true)
  | [], y0, d => by
    have : ∀ px py, spriteHits x0 y0 [] px py = false := by
      intro px py
      simp [spriteHits]
    simp [drawRows, this]
  | row :: rows, y0, d => by
    unfold drawRows
    split
    next hout =>
      have hno : ∀ px py, py < 32 → spriteHits x0 y0 (row :: rows) px py = false := by
        intro px py hpy
        have : ¬ (y0 ≤ py) := by omega
        simp [spriteHits, this]
      constructor
      · intro px py _ hpy
        simp [hno px py hpy]
      · constructor
        · exact Or.inl
        · rintro (h | ⟨px, py, _, hpy, _, hh⟩)
          · exact h
          · simp [hno px py hpy] at hh
    next hin =>
      have hy : y0 < 32 := by omega
      obtain ⟨c1, c2⟩ := drawColumns_spec (x0 := x0) row hy (List.range 8) d List.pairwise_lt_range
      obtain ⟨ih1, ih2⟩ := drawRows_spec x0 rows (y0 + 1) (drawColumns x0 y0 row (List.range 8) d)
      have hrow : ∀ px py, columnHits x0 y0 row (List.range 8) px py = true →
          py = y0 ∧ spriteHits x0 (y0 + 1) rows px py = false := by
        intro px py h
        have hpy : py = y0 := by
          rw [columnHits_range] at h
          simp at h
          exact h.1.1
        subst hpy
        exact ⟨rfl, by simp [spriteHits]⟩
      constructor
      · intro px py hpx hpy
        rw [ih1 px py hpx hpy, c1 px py hpx, spriteHits_cons, Bool.xor_assoc]
      · rw [ih2, c2]
        constructor
        · rintro ((h | ⟨px, py, hpx, h1, h2⟩) | ⟨px, py, hpx, hpy, h1, h2⟩)
          · exact Or.inl h
          · obtain ⟨rfl, h3⟩ := hrow px py h2
            exact Or.inr ⟨px, py, hpx, hy, h1, by rw [spriteHits_cons, h2, h3]; rfl⟩
          · have hc : columnHits x0 y0 row (List.range 8) px py = false := by
              by_contra hne
              have := (hrow px py (by simpa using hne)).2
              simp [this] at h2
            rw [c1 px py hpx, hc, Bool.xor_false] at h1
            exact Or.inr ⟨px, py, hpx, hpy, h1, by rw [spriteHits_cons, hc, h2]; rfl⟩
        · rintro (h | ⟨px, py, hpx, hpy, h1, h2⟩)
          · exact Or.inl (Or.inl h)
          · by_cases hc : columnHits x0 y0 row (List.range 8) px py = true
            · exact Or.inl (Or.inr ⟨px, py, hpx, h1, hc⟩)
            · have hc' : columnHits x0 y0 row (List.range 8) px py = false := by simpa using hc
              rw [spriteHits_cons, hc', Bool.false_xor] at h2
              exact Or.inr ⟨px, py, hpx, hpy, by rw [c1 px py hpx, hc', Bool.xor_false, h1], h2⟩

/-- The cleared framebuffer has no set pixel. -/
theorem pixel_clear (px py : Nat) :
    pixel (Vector.replicate 32 (Vector.replicate 64 false)) px py = false := by
  by_cases h : px < 64 ∧ py < 32
  · simp [pixel, h]
  · exact pixel_outside _ h

end Sys2Proof.Machine
end

