-- ==== Sys2Proof/Laws/HostOps.lean ====
section
/-! SUPPORT. Sequences of the host's operations: one after another, and which are legal. -/

namespace Sys2Proof.Machine

@[simp] theorem performAll_nil (s : State) : performAll [] s = (s, []) := rfl

@[simp] theorem performAll_cons (op : HostOp) (ops : List HostOp) (s : State) :
    performAll (op :: ops) s =
      ((performAll ops (perform op s).1).1, (perform op s).2 :: (performAll ops (perform op s).1).2) := rfl

/-- One reply for each operation. -/
@[simp] theorem performAll_replies_length : ∀ (ops : List HostOp) (s : State),
    (performAll ops s).2.length = ops.length
  | [], _ => rfl
  | _ :: ops, _ => by simp [performAll_replies_length ops]

@[simp] theorem phaseAfter_nil (p : BootPhase) : phaseAfter p [] = some p := rfl

/-- `reset` is legal at any time and starts a new sequence (decision D34). -/
@[simp] theorem nextPhase_reset (p : BootPhase) : nextPhase p .reset = some .fresh := by
  cases p <;> rfl

/-- The phase after two sequences in a row. -/
theorem phaseAfter_append : ∀ (ops ops' : List HostOp) (p : BootPhase),
    phaseAfter p (ops ++ ops') = (phaseAfter p ops).bind fun q => phaseAfter q ops'
  | [], _, _ => rfl
  | op :: ops, ops', p => by
    simp only [List.cons_append, phaseAfter, Option.bind_assoc]
    congr 1
    funext q
    exact phaseAfter_append ops ops' q

/-- After a legal sequence, one that starts with `reset` is legal exactly if it is so on its own. -/
theorem legalOps_append_reset {ops : List HostOp} (h : LegalOps ops = true) (ops' : List HostOp) :
    LegalOps (ops ++ .reset :: ops') = LegalOps (.reset :: ops') := by
  obtain ⟨q, hq⟩ := Option.isSome_iff_exists.mp h
  simp [LegalOps, phaseAfter_append, hq, phaseAfter]

end Sys2Proof.Machine
end

