-- ==== Sys2Proof/Laws/PerInstr.lean ====
section
/-! SUPPORT. The statements made instruction by instruction: every instruction's word selects its own row
of spec/opcode_table.json. -/

namespace Sys2Proof.Laws

/-- The mask of an instruction's row (spec/30_encoding.md R75). -/
def rowMask : Instr → Word
  | .cls => 0xFFFF
  | .ret => 0xFFFF
  | .jp _ => 0xF000
  | .call _ => 0xF000
  | .seImm _ _ => 0xF000
  | .sneImm _ _ => 0xF000
  | .seReg _ _ => 0xF00F
  | .ldImm _ _ => 0xF000
  | .addImm _ _ => 0xF000
  | .ldReg _ _ => 0xF00F
  | .orReg _ _ => 0xF00F
  | .andReg _ _ => 0xF00F
  | .xorReg _ _ => 0xF00F
  | .addReg _ _ => 0xF00F
  | .sub _ _ => 0xF00F
  | .shr _ _ => 0xF00F
  | .subn _ _ => 0xF00F
  | .shl _ _ => 0xF00F
  | .sneReg _ _ => 0xF00F
  | .ldI _ => 0xF000
  | .jpVx _ _ => 0xF000
  | .rnd _ _ => 0xF000
  | .drw _ _ _ => 0xF000
  | .skp _ => 0xF0FF
  | .sknp _ => 0xF0FF
  | .ldVxDt _ => 0xF0FF
  | .ldVxK _ => 0xF0FF
  | .ldDtVx _ => 0xF0FF
  | .ldStVx _ => 0xF0FF
  | .addI _ => 0xF0FF
  | .ldF _ => 0xF0FF
  | .ldB _ => 0xF0FF
  | .stRegs _ => 0xF0FF
  | .ldRegs _ => 0xF0FF

/-- The match value of an instruction's row (spec/30_encoding.md R75). -/
def rowMatch : Instr → Word
  | .cls => 0x00E0
  | .ret => 0x00EE
  | .jp _ => 0x1000
  | .call _ => 0x2000
  | .seImm _ _ => 0x3000
  | .sneImm _ _ => 0x4000
  | .seReg _ _ => 0x5000
  | .ldImm _ _ => 0x6000
  | .addImm _ _ => 0x7000
  | .ldReg _ _ => 0x8000
  | .orReg _ _ => 0x8001
  | .andReg _ _ => 0x8002
  | .xorReg _ _ => 0x8003
  | .addReg _ _ => 0x8004
  | .sub _ _ => 0x8005
  | .shr _ _ => 0x8006
  | .subn _ _ => 0x8007
  | .shl _ _ => 0x800E
  | .sneReg _ _ => 0x9000
  | .ldI _ => 0xA000
  | .jpVx _ _ => 0xB000
  | .rnd _ _ => 0xC000
  | .drw _ _ _ => 0xD000
  | .skp _ => 0xE09E
  | .sknp _ => 0xE0A1
  | .ldVxDt _ => 0xF007
  | .ldVxK _ => 0xF00A
  | .ldDtVx _ => 0xF015
  | .ldStVx _ => 0xF018
  | .addI _ => 0xF01E
  | .ldF _ => 0xF029
  | .ldB _ => 0xF033
  | .stRegs _ => 0xF055
  | .ldRegs _ => 0xF065

/-- The word of the instruction selects the instruction's row: `(w and mask) = match`
(spec/30_encoding.md R75). -/
def SelectsRow.Statement (i : Instr) : Prop := encode i &&& rowMask i = rowMatch i

theorem nibble_and_ones (a : Nibble) : a &&& 0xF#4 = a := by
  rw [show (0xF#4 : Nibble) = BitVec.allOnes 4 from rfl, BitVec.and_allOnes]

theorem byte_and_ones (a : Byte) : a &&& 0xFF#8 = a := by
  rw [show (0xFF#8 : Byte) = BitVec.allOnes 8 from rfl, BitVec.and_allOnes]

theorem encodeNnn_and_family (op : Nibble) (nnn : Addr) :
    encodeNnn op nnn &&& 0xF000 = op ++ (0 : Addr) := by
  rw [encodeNnn, show (0xF000 : Word) = (0xF#4 ++ 0#12 : Word) from rfl, BitVec.and_append, nibble_and_ones]
  simp

theorem encodeXnn_and_family (op : Nibble) (x : Reg) (nn : Byte) :
    encodeXnn op x nn &&& 0xF000 = op ++ (0 : Addr) :=
  encodeNnn_and_family op (regBits x ++ nn)

theorem encodeXnn_and_low (op : Nibble) (x : Reg) (nn : Byte) :
    encodeXnn op x nn &&& 0xF0FF = op ++ (0#4 ++ nn : Addr) := by
  rw [encodeXnn, show (0xF0FF : Word) = (0xF#4 ++ (0#4 ++ 0xFF#8 : Addr) : Word) from rfl,
    BitVec.and_append, BitVec.and_append, nibble_and_ones, byte_and_ones]
  simp

theorem encodeXyn_and_family (op : Nibble) (x y : Reg) (n : Nibble) :
    encodeXyn op x y n &&& 0xF000 = op ++ (0 : Addr) :=
  encodeNnn_and_family op (regBits x ++ (regBits y ++ n : Byte))

theorem encodeXyn_and_sub (op : Nibble) (x y : Reg) (n : Nibble) :
    encodeXyn op x y n &&& 0xF00F = op ++ (0#4 ++ (0#4 ++ n : Byte) : Addr) := by
  rw [encodeXyn, show (0xF00F : Word) = (0xF#4 ++ (0#4 ++ (0#4 ++ 0xF#4 : Byte) : Addr) : Word) from rfl,
    BitVec.and_append, BitVec.and_append, BitVec.and_append, nibble_and_ones, nibble_and_ones]
  simp

theorem SelectsRow.cls : SelectsRow.Statement (.cls) :=
  rfl
theorem SelectsRow.ret : SelectsRow.Statement (.ret) :=
  rfl
theorem SelectsRow.jp (nnn : Addr) : SelectsRow.Statement (.jp nnn) :=
  encodeNnn_and_family 0x1 nnn
theorem SelectsRow.call (nnn : Addr) : SelectsRow.Statement (.call nnn) :=
  encodeNnn_and_family 0x2 nnn
theorem SelectsRow.seImm (x : Reg) (nn : Byte) : SelectsRow.Statement (.seImm x nn) :=
  encodeXnn_and_family 0x3 x nn
theorem SelectsRow.sneImm (x : Reg) (nn : Byte) : SelectsRow.Statement (.sneImm x nn) :=
  encodeXnn_and_family 0x4 x nn
theorem SelectsRow.seReg (x y : Reg) : SelectsRow.Statement (.seReg x y) :=
  encodeXyn_and_sub 0x5 x y 0x0
theorem SelectsRow.ldImm (x : Reg) (nn : Byte) : SelectsRow.Statement (.ldImm x nn) :=
  encodeXnn_and_family 0x6 x nn
theorem SelectsRow.addImm (x : Reg) (nn : Byte) : SelectsRow.Statement (.addImm x nn) :=
  encodeXnn_and_family 0x7 x nn
theorem SelectsRow.ldReg (x y : Reg) : SelectsRow.Statement (.ldReg x y) :=
  encodeXyn_and_sub 0x8 x y 0x0
theorem SelectsRow.orReg (x y : Reg) : SelectsRow.Statement (.orReg x y) :=
  encodeXyn_and_sub 0x8 x y 0x1
theorem SelectsRow.andReg (x y : Reg) : SelectsRow.Statement (.andReg x y) :=
  encodeXyn_and_sub 0x8 x y 0x2
theorem SelectsRow.xorReg (x y : Reg) : SelectsRow.Statement (.xorReg x y) :=
  encodeXyn_and_sub 0x8 x y 0x3
theorem SelectsRow.addReg (x y : Reg) : SelectsRow.Statement (.addReg x y) :=
  encodeXyn_and_sub 0x8 x y 0x4
theorem SelectsRow.sub (x y : Reg) : SelectsRow.Statement (.sub x y) :=
  encodeXyn_and_sub 0x8 x y 0x5
theorem SelectsRow.shr (x y : Reg) : SelectsRow.Statement (.shr x y) :=
  encodeXyn_and_sub 0x8 x y 0x6
theorem SelectsRow.subn (x y : Reg) : SelectsRow.Statement (.subn x y) :=
  encodeXyn_and_sub 0x8 x y 0x7
theorem SelectsRow.shl (x y : Reg) : SelectsRow.Statement (.shl x y) :=
  encodeXyn_and_sub 0x8 x y 0xE
theorem SelectsRow.sneReg (x y : Reg) : SelectsRow.Statement (.sneReg x y) :=
  encodeXyn_and_sub 0x9 x y 0x0
theorem SelectsRow.ldI (nnn : Addr) : SelectsRow.Statement (.ldI nnn) :=
  encodeNnn_and_family 0xA nnn
theorem SelectsRow.jpVx (x : Reg) (nnn : Addr) : SelectsRow.Statement (.jpVx x nnn) :=
  encodeNnn_and_family 0xB nnn
theorem SelectsRow.rnd (x : Reg) (nn : Byte) : SelectsRow.Statement (.rnd x nn) :=
  encodeXnn_and_family 0xC x nn
theorem SelectsRow.drw (x y : Reg) (n : Nibble) : SelectsRow.Statement (.drw x y n) :=
  encodeXyn_and_family 0xD x y n
theorem SelectsRow.skp (x : Reg) : SelectsRow.Statement (.skp x) :=
  encodeXnn_and_low 0xE x 0x9E
theorem SelectsRow.sknp (x : Reg) : SelectsRow.Statement (.sknp x) :=
  encodeXnn_and_low 0xE x 0xA1
theorem SelectsRow.ldVxDt (x : Reg) : SelectsRow.Statement (.ldVxDt x) :=
  encodeXnn_and_low 0xF x 0x07
theorem SelectsRow.ldVxK (x : Reg) : SelectsRow.Statement (.ldVxK x) :=
  encodeXnn_and_low 0xF x 0x0A
theorem SelectsRow.ldDtVx (x : Reg) : SelectsRow.Statement (.ldDtVx x) :=
  encodeXnn_and_low 0xF x 0x15
theorem SelectsRow.ldStVx (x : Reg) : SelectsRow.Statement (.ldStVx x) :=
  encodeXnn_and_low 0xF x 0x18
theorem SelectsRow.addI (x : Reg) : SelectsRow.Statement (.addI x) :=
  encodeXnn_and_low 0xF x 0x1E
theorem SelectsRow.ldF (x : Reg) : SelectsRow.Statement (.ldF x) :=
  encodeXnn_and_low 0xF x 0x29
theorem SelectsRow.ldB (x : Reg) : SelectsRow.Statement (.ldB x) :=
  encodeXnn_and_low 0xF x 0x33
theorem SelectsRow.stRegs (x : Reg) : SelectsRow.Statement (.stRegs x) :=
  encodeXnn_and_low 0xF x 0x55
theorem SelectsRow.ldRegs (x : Reg) : SelectsRow.Statement (.ldRegs x) :=
  encodeXnn_and_low 0xF x 0x65

end Sys2Proof.Laws
end

