-- ==== Sys2Proof/Laws/Step.lean ====
section
/-! SUPPORT. The step: what the fetch answers, and the cases of a cycle. -/

namespace Sys2Proof.Machine

/-- A fetch inside the memory reads the two bytes at `pc`. -/
theorem fetch_ok {s : State} (h : s.pc.toNat + 1 < Config.memSize) :
    fetch s = .ok (wordOfBytes (memRead s.mem s.pc.toNat) (memRead s.mem (s.pc.toNat + 1))) := by
  have h0 : s.pc.toNat < Config.memSize := by omega
  simp only [fetch, memReadChecked_ok h0, memReadChecked_ok h]

/-- A fetch past the memory's end names the lowest address that does not exist. -/
theorem fetch_error {s : State} (h : Config.memSize ≤ s.pc.toNat + 1) :
    fetch s = .error (max s.pc.toNat Config.memSize) := by
  by_cases h0 : s.pc.toNat < Config.memSize
  · have : max s.pc.toNat Config.memSize = s.pc.toNat + 1 := by omega
    simp only [fetch, memReadChecked_ok h0, memReadChecked_error h, this]
  · have h1 : Config.memSize ≤ s.pc.toNat := by omega
    simp only [fetch, memReadChecked_error h1, Nat.max_eq_left h1]

/-- A fetch answers a word exactly when both bytes exist. -/
theorem fetch_eq_ok {s : State} {w : Word} :
    fetch s = .ok w ↔ s.pc.toNat + 1 < Config.memSize ∧
      w = wordOfBytes (memRead s.mem s.pc.toNat) (memRead s.mem (s.pc.toNat + 1)) := by
  by_cases h : s.pc.toNat + 1 < Config.memSize
  · rw [fetch_ok h]
    simp [h, eq_comm]
  · rw [fetch_error (by omega)]
    simp [h]

/-- The cases of a cycle: a fetch fault, a decode fault, or the execution of the decoded instruction. -/
theorem cycle_cases (s : State) :
    (Config.memSize ≤ s.pc.toNat + 1 ∧
      cycle s = .fault (.addressError ⟨s.pc, 0, max s.pc.toNat Config.memSize, s⟩)) ∨
    (∃ w r, fetch s = .ok w ∧ decodeWord w = .error r ∧
      cycle s = .fault (.decodeError ⟨s.pc, w, w.toNat, advancePc s⟩)) ∨
    (∃ w i, fetch s = .ok w ∧ decodeWord w = .ok i ∧ cycle s = exec i (advancePc s)) := by
  by_cases h : s.pc.toNat + 1 < Config.memSize
  · right
    have hf := fetch_ok h
    cases hd : decodeWord (wordOfBytes (memRead s.mem s.pc.toNat) (memRead s.mem (s.pc.toNat + 1))) with
    | error r => exact Or.inl ⟨_, r, hf, hd, by simp only [cycle, hf, hd]⟩
    | ok i => exact Or.inr ⟨_, i, hf, hd, by simp only [cycle, hf, hd]⟩
  · left
    exact ⟨by omega, by simp only [cycle, fetch_error (show Config.memSize ≤ s.pc.toNat + 1 by omega)]⟩

/-- A cycle that ends in a next state executed a decoded instruction. -/
theorem cycle_eq_next {s t : State} (h : cycle s = .next t) :
    ∃ w i, fetch s = .ok w ∧ decodeWord w = .ok i ∧ exec i (advancePc s) = .next t := by
  rcases cycle_cases s with ⟨_, hc⟩ | ⟨_, _, _, _, hc⟩ | ⟨w, i, hf, hd, hc⟩
  · simp [hc] at h
  · simp [hc] at h
  · exact ⟨w, i, hf, hd, hc ▸ h⟩

/-- A step ends in a next state exactly when its cycle does, the next inputs being drawn after it. -/
theorem step_eq_next {s t : State} : step s = .next t ↔ ∃ u, cycle s = .next u ∧ t = drawInputs u := by
  unfold step stepOnce
  exact mapResult_eq_next

/-- Placing a word changes memory alone, inside the memory. -/
theorem placeWord_eq (s : State) (w : Word) (h : s.pc.toNat + 1 < Config.memSize) :
    placeWord s w = setMem s (memWriteList s.mem s.pc.toNat (bytesOfWord w)) := by
  simp [placeWord, h]

/-- The word placed is the word the next fetch reads. -/
theorem fetch_placeWord (s : State) (w : Word) (h : s.pc.toNat + 1 < Config.memSize)
    (hm : Memory.wf s.mem = true) : fetch (placeWord s w) = .ok w := by
  rw [placeWord_eq s w h]
  have hlen : s.pc.toNat + (bytesOfWord w).length ≤ Config.memSize := by
    simp only [bytesOfWord, List.length_cons, List.length_nil]
    omega
  rw [fetch_ok (s := setMem s (memWriteList s.mem s.pc.toNat (bytesOfWord w))) h]
  simp only [setMem_mem, setMem_pc, memRead_memWriteList _ hlen hm]
  simp [bytesOfWord, wordOfBytes_bytesOfWord]

end Sys2Proof.Machine
end

