-- ==== Sys2Proof/Machine/Assembler.lean ====
section
/-! DEFINITION. The names and assembler forms the spec attaches to the instructions (spec/30_encoding.md R75,
R84). They label encodings and have no effect on the machine. -/

namespace Sys2Proof.Machine

/-- One hexadecimal digit, capital. -/
def hexDigit (k : Nat) : Char := (['0', '1', '2', '3', '4', '5', '6', '7', '8', '9', 'A', 'B', 'C', 'D', 'E', 'F'][k]?).getD '0'

/-- A register, written `V0` to `VF` (R84). -/
def showReg (x : Reg) : List Char := ['V', hexDigit x.val]

/-- The constant `n`, one digit. -/
def showN (n : Nibble) : List Char := [hexDigit n.toNat]

/-- The constant `nn`, two digits. -/
def showNn (nn : Byte) : List Char := [hexDigit (nn.toNat / 16), hexDigit (nn.toNat % 16)]

/-- The constant `nnn`, three digits. -/
def showNnn (nnn : Addr) : List Char :=
  [hexDigit (nnn.toNat / 256), hexDigit (nnn.toNat / 16 % 16), hexDigit (nnn.toNat % 16)]

/-- A comma and a space. -/
def sep : List Char := [',', ' ']

/-- The two-register forms: a word, `Vx`, `Vy`, destination first (R84). -/
def showXY (word : List Char) (x y : Reg) : List Char := word ++ [' '] ++ showReg x ++ sep ++ showReg y

/-- The forms with a register and a constant of 8 bits. -/
def showXNn (word : List Char) (x : Reg) (nn : Byte) : List Char := word ++ [' '] ++ showReg x ++ sep ++ showNn nn

/-- `LD` with a destination and a source. -/
def showLd (dst src : List Char) : List Char := ['L', 'D', ' '] ++ dst ++ sep ++ src

/-- The assembler form of an instruction (the column `assembler` of R75). -/
def assembler : Instr → List Char
  | .cls => ['C', 'L', 'S']
  | .ret => ['R', 'E', 'T']
  | .jp nnn => ['J', 'P', ' '] ++ showNnn nnn
  | .call nnn => ['C', 'A', 'L', 'L', ' '] ++ showNnn nnn
  | .seImm x nn => showXNn ['S', 'E'] x nn
  | .sneImm x nn => showXNn ['S', 'N', 'E'] x nn
  | .seReg x y => showXY ['S', 'E'] x y
  | .ldImm x nn => showXNn ['L', 'D'] x nn
  | .addImm x nn => showXNn ['A', 'D', 'D'] x nn
  | .ldReg x y => showXY ['L', 'D'] x y
  | .orReg x y => showXY ['O', 'R'] x y
  | .andReg x y => showXY ['A', 'N', 'D'] x y
  | .xorReg x y => showXY ['X', 'O', 'R'] x y
  | .addReg x y => showXY ['A', 'D', 'D'] x y
  | .sub x y => showXY ['S', 'U', 'B'] x y
  | .shr x y => showXY ['S', 'H', 'R'] x y
  | .subn x y => showXY ['S', 'U', 'B', 'N'] x y
  | .shl x y => showXY ['S', 'H', 'L'] x y
  | .sneReg x y => showXY ['S', 'N', 'E'] x y
  | .ldI nnn => showLd ['I'] (showNnn nnn)
  | .jpVx x nnn => ['J', 'P', ' '] ++ showReg x ++ sep ++ showNnn nnn
  | .rnd x nn => showXNn ['R', 'N', 'D'] x nn
  | .drw x y n => showXY ['D', 'R', 'W'] x y ++ sep ++ showN n
  | .skp x => ['S', 'K', 'P', ' '] ++ showReg x
  | .sknp x => ['S', 'K', 'N', 'P', ' '] ++ showReg x
  | .ldVxDt x => showLd (showReg x) ['D', 'T']
  | .ldVxK x => showLd (showReg x) ['K']
  | .ldDtVx x => showLd ['D', 'T'] (showReg x)
  | .ldStVx x => showLd ['S', 'T'] (showReg x)
  | .addI x => ['A', 'D', 'D', ' ', 'I'] ++ sep ++ showReg x
  | .ldF x => showLd ['F'] (showReg x)
  | .ldB x => showLd ['B'] (showReg x)
  | .stRegs x => showLd ['[', 'I', ']'] (showReg x)
  | .ldRegs x => showLd (showReg x) ['[', 'I', ']']

end Sys2Proof.Machine
end

