-- ==== Sys2Proof/Tests/Slice0.lean ====
section
/-! SUPPORT. The tests: words written out bit by bit, one step per instruction, and for every statement with
premises a state that meets them. Expected results are those of spec/95_test_vectors.md (its rows and
properties S1 to S13) or computed by hand from the rule named. -/

namespace Sys2Proof.Tests

open Sys2Proof Sys2Proof.Machine

/-! ### Helpers -/

/-- One step on the word, with the inputs the state holds. -/
def run (w : Nat) (s : State) : State × Reply := perform (.step s.keys s.rnd) (s.withFetchWord 16 w)

/-- Reset, with the registers listed set. -/
def regs (l : List (Reg × Byte)) : State := l.foldl (fun s p => writeReg s p.1 p.2) State.reset

/-- Bytes put into memory. -/
def bytesAt (a : Nat) (l : List Byte) (s : State) : State := setMem s (memWriteList s.mem a l)

/-- Pixels set, column first. -/
def pixelsAt (l : List (Nat × Nat)) (s : State) : State :=
  setFb s (l.foldl (fun f p => setPixel f p.1 p.2 true) s.fb)

/-- The keys listed are down. -/
def keysDown (l : List Nat) (s : State) : State :=
  { s with keys := l.foldl (fun k j => k.setIfInBounds j true) (Vector.replicate 16 false) }

/-- A stack of `k` equal entries. -/
def stackOf (k : Nat) (s : State) : State := setStack s (List.replicate k 0x0206)

/-- The fault of a reply: code, `epc`, `einstr`, `info`. -/
def told : Reply → Option (Nat × Word × Word × Nat)
  | .ok => none
  | .fault f => some (faultCode f, (faultReport f).epc, (faultReport f).einstr, (faultReport f).info)
  | .refused _ => none

/-! ### Well-formed and ill-formed terms -/

/-- R84: the register of `JP Vx, 2FF` must be V2. -/
theorem test_ill_formed_jpVx : WellFormed (.jpVx 3 0x2FF) = false := by decide

theorem test_well_formed_jpVx : WellFormed (.jpVx 2 0x2FF) = true := by decide

/-- R82: no operand value makes any other instruction ill formed. -/
theorem test_well_formed_drw : WellFormed (.drw 15 15 15) = true := by decide

/-! ### Decoding: words written out from the encodings of spec/30_encoding.md R73 and R75 -/

theorem test_word_cls : decodeWord 0b0000_0000_1110_0000 = .ok .cls := by decide
theorem test_word_ret : decodeWord 0b0000_0000_1110_1110 = .ok .ret := by decide
theorem test_word_jp : decodeWord 0b0001_0010_0000_0100 = .ok (.jp 0x204) := by decide
theorem test_word_call : decodeWord 0b0010_0010_0000_1010 = .ok (.call 0x20A) := by decide
theorem test_word_seImm : decodeWord 0b0011_1010_1111_0000 = .ok (.seImm 10 0xF0) := by decide
theorem test_word_sneImm : decodeWord 0b0100_0010_0000_1111 = .ok (.sneImm 2 0x0F) := by decide
theorem test_word_seReg : decodeWord 0b0101_0001_0010_0000 = .ok (.seReg 1 2) := by decide
theorem test_word_ldImm : decodeWord 0b0110_1010_0010_1111 = .ok (.ldImm 10 0x2F) := by decide
theorem test_word_addImm : decodeWord 0b0111_0001_0000_0010 = .ok (.addImm 1 2) := by decide
theorem test_word_ldReg : decodeWord 0b1000_1110_1111_0000 = .ok (.ldReg 14 15) := by decide
theorem test_word_orReg : decodeWord 0b1000_0001_0010_0001 = .ok (.orReg 1 2) := by decide
theorem test_word_andReg : decodeWord 0b1000_0001_0010_0010 = .ok (.andReg 1 2) := by decide
theorem test_word_xorReg : decodeWord 0b1000_0001_0010_0011 = .ok (.xorReg 1 2) := by decide
theorem test_word_addReg : decodeWord 0b1000_1010_1011_0100 = .ok (.addReg 10 11) := by decide
theorem test_word_sub : decodeWord 0b1000_0001_0010_0101 = .ok (.sub 1 2) := by decide
theorem test_word_shr : decodeWord 0b1000_0001_0010_0110 = .ok (.shr 1 2) := by decide
theorem test_word_subn : decodeWord 0b1000_0001_0010_0111 = .ok (.subn 1 2) := by decide
theorem test_word_shl : decodeWord 0b1000_0001_0010_1110 = .ok (.shl 1 2) := by decide
theorem test_word_sneReg : decodeWord 0b1001_0001_0010_0000 = .ok (.sneReg 1 2) := by decide
theorem test_word_ldI : decodeWord 0b1010_0011_0000_0001 = .ok (.ldI 0x301) := by decide
theorem test_word_jpVx : decodeWord 0b1011_0010_1111_1111 = .ok (.jpVx 2 0x2FF) := by decide
theorem test_word_rnd : decodeWord 0b1100_0001_0000_1111 = .ok (.rnd 1 0x0F) := by decide
theorem test_word_drw : decodeWord 0b1101_0001_0010_0011 = .ok (.drw 1 2 3) := by decide
theorem test_word_skp : decodeWord 0b1110_0011_1001_1110 = .ok (.skp 3) := by decide
theorem test_word_sknp : decodeWord 0b1110_0011_1010_0001 = .ok (.sknp 3) := by decide
theorem test_word_ldVxDt : decodeWord 0b1111_0001_0000_0111 = .ok (.ldVxDt 1) := by decide
theorem test_word_ldVxK : decodeWord 0b1111_0101_0000_1010 = .ok (.ldVxK 5) := by decide
theorem test_word_ldDtVx : decodeWord 0b1111_0001_0001_0101 = .ok (.ldDtVx 1) := by decide
theorem test_word_ldStVx : decodeWord 0b1111_0010_0001_1000 = .ok (.ldStVx 2) := by decide
theorem test_word_addI : decodeWord 0b1111_0010_0001_1110 = .ok (.addI 2) := by decide
theorem test_word_ldF : decodeWord 0b1111_0001_0010_1001 = .ok (.ldF 1) := by decide
theorem test_word_ldB : decodeWord 0b1111_0001_0011_0011 = .ok (.ldB 1) := by decide
theorem test_word_stRegs : decodeWord 0b1111_0010_0101_0101 = .ok (.stRegs 2) := by decide
theorem test_word_ldRegs : decodeWord 0b1111_0010_0110_0101 = .ok (.ldRegs 2) := by decide

/-- The illegal words of spec/95_test_vectors.md 2.1, one of every clause of `IllegalWordsAreExactly`. -/
theorem test_illegal_words :
    decodeWord 0x0000 = .error (.illegal 0) ∧ decodeWord 0x00E1 = .error (.illegal 0x00E1) ∧
    decodeWord 0x01E0 = .error (.illegal 0x01E0) ∧ decodeWord 0x5121 = .error (.illegal 0x5121) ∧
    decodeWord 0x912F = .error (.illegal 0x912F) ∧ decodeWord 0x8128 = .error (.illegal 0x8128) ∧
    decodeWord 0x812F = .error (.illegal 0x812F) ∧ decodeWord 0xE39F = .error (.illegal 0xE39F) ∧
    decodeWord 0xF008 = .error (.illegal 0xF008) := by decide

/-- The bytes of a program image: high byte first, the rest handed back (R54, R70). -/
theorem test_decode_bytes :
    decode [0xD1, 0x23, 0x00] = .ok (.drw 1 2 3, [0x00]) ∧ decode [0xD1] = .error .truncated := by decide

theorem test_decodeTableWord : decodeTableWord 16 0x8AB4 = some (.addReg 0xA 0xB) := by decide

/-- Lines of the programs P2, P3 and P7, in the assembler form of R84. -/
theorem test_assembler :
    assembler (.call 0x20A) = "CALL 20A".toList ∧ assembler (.drw 0 1 2) = "DRW V0, V1, 2".toList ∧
    assembler (.stRegs 1) = "LD [I], V1".toList ∧ assembler (.ldImm 0 0xFE) = "LD V0, FE".toList ∧
    assembler (.jpVx 2 0x2FF) = "JP V2, 2FF".toList := by decide

/-! ### The step -/

/-- P6: an illegal word faults, `pc` advances and nothing else changes. -/
theorem test_decode_error :
    told (run 0x812F State.reset).2 = some (1, 0x0200, 0x812F, 0x812F) ∧
    (run 0x812F State.reset).1 = { State.reset.withFetchWord 16 0x812F with pc := 0x0202 } := by decide

/-- 2.1: the three fetch faults. -/
theorem test_fetch_error :
    told (run 0 (setPc State.reset 0x0FFF)).2 = some (4, 0x0FFF, 0, 0x1000) ∧
    told (run 0 (setPc State.reset 0x1000)).2 = some (4, 0x1000, 0, 0x1000) ∧
    told (run 0 (setPc State.reset 0x10FE)).2 = some (4, 0x10FE, 0, 0x10FE) ∧
    (run 0 (setPc State.reset 0x10FE)).1.pc = 0x10FE := by decide

/-- 2.1: the last fetchable address and an odd one. -/
theorem test_fetch_edges :
    (run 0x6177 (setPc State.reset 0x0FFE)).1.pc = 0x1000 ∧
    (run 0x6177 (setPc State.reset 0x0201)).1.pc = 0x0203 := by decide

/-! ### Control transfer (2.2) -/

theorem test_ret :
    (run 0x00EE (setStack (setPc State.reset 0x0300) [0x0FFF, 0x0206])).1.pc = 0x0FFF ∧
    (run 0x00EE (setStack (setPc State.reset 0x0300) [0x0FFF, 0x0206])).1.stack = [0x0206] := by decide
theorem test_ret_underflow :
    told (run 0x00EE (setPc State.reset 0x0300)).2 = some (2, 0x0300, 0x00EE, 0) ∧
    (run 0x00EE (setPc State.reset 0x0300)).1.pc = 0x0302 := by decide
theorem test_jp : (run 0x1204 (setPc State.reset 0x020A)).1.pc = 0x0204 := by decide
theorem test_call :
    (run 0x220A (setPc State.reset 0x0204)).1.pc = 0x020A ∧
    (run 0x220A (setPc State.reset 0x0204)).1.stack = [0x0206] := by decide
theorem test_call_overflow :
    told (run 0x2ABC (stackOf 16 State.reset)).2 = some (3, 0x0200, 0x2ABC, 0) ∧
    (run 0x2ABC (stackOf 16 State.reset)).1.pc = 0x0202 ∧
    (run 0x2ABC (stackOf 15 State.reset)).1.stack.length = 16 := by decide
theorem test_seImm :
    (run 0x3100 (setPc State.reset 0x0208)).1.pc = 0x020C ∧
    (run 0x3100 (setPc (regs [(1, 1)]) 0x0208)).1.pc = 0x020A := by decide
theorem test_seImm_past_the_end : (run 0x3100 (setPc State.reset 0x0FFE)).1.pc = 0x1002 := by decide
theorem test_sneImm :
    (run 0x42FF (regs [(2, 0xFE)])).1.pc = 0x0204 ∧ (run 0x42FF (regs [(2, 0xFF)])).1.pc = 0x0202 := by decide
theorem test_seReg :
    (run 0x5120 (regs [(1, 7), (2, 7)])).1.pc = 0x0204 ∧
    (run 0x5120 (regs [(1, 7), (2, 8)])).1.pc = 0x0202 := by decide
theorem test_sneReg :
    (run 0x9120 (regs [(1, 7), (2, 8)])).1.pc = 0x0204 ∧
    (run 0x9120 (regs [(1, 7), (2, 7)])).1.pc = 0x0202 := by decide
theorem test_jpVx :
    (run 0xB2FF (regs [(2, 0x10)])).1.pc = 0x030F ∧ (run 0xBFFF (regs [(15, 0xFF)])).1.pc = 0x10FE := by decide

/-! ### Load, arithmetic, logic, shift, random (2.3) -/

theorem test_ldImm : readReg (run 0x6A2F State.reset).1 10 = 0x2F ∧ (run 0x6A2F State.reset).1.pc = 0x0202 := by
  decide
theorem test_addImm :
    readReg (run 0x7102 (regs [(1, 0xFF), (15, 1)])).1 1 = 1 ∧
    readReg (run 0x7102 (regs [(1, 0xFF)])).1 15 = 0 := by decide
theorem test_addImm_into_vf : readReg (run 0x7F01 (regs [(15, 0xFF)])).1 15 = 0 := by decide
theorem test_ldReg : readReg (run 0x8EF0 (regs [(14, 9), (15, 1)])).1 14 = 1 := by decide
theorem test_orReg :
    readReg (run 0x8121 (regs [(1, 0x0F), (2, 0xF0), (15, 1)])).1 1 = 0xFF ∧
    readReg (run 0x8121 (regs [(1, 0x0F), (2, 0xF0), (15, 1)])).1 15 = 1 := by decide
theorem test_orReg_into_vf : readReg (run 0x8F21 (regs [(15, 1), (2, 0x80)])).1 15 = 0x81 := by decide
theorem test_andReg : readReg (run 0x8122 (regs [(1, 0x3C), (2, 0x0F)])).1 1 = 0x0C := by decide
theorem test_xorReg :
    readReg (run 0x8123 (regs [(1, 0xFF), (2, 0x0F)])).1 1 = 0xF0 ∧
    readReg (run 0x8113 (regs [(1, 0xAB)])).1 1 = 0 := by decide
theorem test_addReg :
    readReg (run 0x8014 (regs [(0, 0xFF), (1, 1)])).1 0 = 0 ∧
    readReg (run 0x8014 (regs [(0, 0xFF), (1, 1)])).1 15 = 1 ∧
    readReg (run 0x8014 (regs [(0, 0xFF), (15, 1)])).1 15 = 0 := by decide
theorem test_addReg_vf :
    readReg (run 0x8F14 (regs [(15, 1), (1, 2)])).1 15 = 0 ∧
    readReg (run 0x81F4 (regs [(1, 0xFF), (15, 1)])).1 1 = 0 := by decide
theorem test_sub :
    readReg (run 0x8015 (regs [(0, 1), (1, 3), (15, 1)])).1 0 = 0xFE ∧
    readReg (run 0x8015 (regs [(0, 1), (1, 3), (15, 1)])).1 15 = 0 := by decide
theorem test_sub_equal :
    readReg (run 0x8015 (regs [(0, 7), (1, 7)])).1 0 = 0 ∧
    readReg (run 0x8015 (regs [(0, 7), (1, 7)])).1 15 = 1 := by decide
theorem test_shr :
    readReg (run 0x8126 (regs [(1, 0xAA), (2, 5)])).1 1 = 2 ∧
    readReg (run 0x8126 (regs [(1, 0xAA), (2, 5)])).1 15 = 1 := by decide
theorem test_shr_into_vf : readReg (run 0x8F26 (regs [(2, 7)])).1 15 = 1 := by decide
theorem test_subn :
    readReg (run 0x8017 (regs [(0, 5), (1, 3), (15, 1)])).1 0 = 0xFE ∧
    readReg (run 0x8017 (regs [(0, 5), (1, 3), (15, 1)])).1 15 = 0 := by decide
theorem test_subn_no_borrow : readReg (run 0x8017 (regs [(0, 3), (1, 5)])).1 0 = 2 := by decide
theorem test_shl :
    readReg (run 0x812E (regs [(1, 0xAA), (2, 0x81)])).1 1 = 2 ∧
    readReg (run 0x812E (regs [(1, 0xAA), (2, 0x81)])).1 15 = 1 := by decide
theorem test_shl_into_vf : readReg (run 0x8F2E (regs [(2, 0x7F), (15, 9)])).1 15 = 0 := by decide
theorem test_rnd : readReg (run 0xC10F { State.reset with rnd := 0xA7 }).1 1 = 0x07 := by decide
theorem test_rnd_zero : readReg (run 0xC100 { regs [(1, 0x55)] with rnd := 0xFF }).1 1 = 0 := by decide

/-! ### Index register and memory (2.4) -/

theorem test_ldI : (run 0xAFFF (setIndex State.reset 5)).1.index = 0x0FFF := by decide
theorem test_addI :
    (run 0xF21E (setIndex (regs [(2, 1)]) 0x0FFF)).1.index = 0x1000 ∧
    readReg (run 0xF21E (setIndex (regs [(2, 1)]) 0x0FFF)).1 15 = 1 ∧
    readReg (run 0xF21E (setIndex (regs [(2, 0x10), (15, 1)]) 0x0300)).1 15 = 1 := by decide
theorem test_addI_wraps :
    (run 0xF21E (setIndex (regs [(2, 2)]) 0xFFFF)).1.index = 1 ∧
    readReg (run 0xF21E (setIndex (regs [(2, 2)]) 0xFFFF)).1 15 = 1 ∧
    readReg (run 0xF21E (setIndex (regs [(2, 0xFE)]) 0x0F01)).1 15 = 0 := by decide
theorem test_ldF :
    (run 0xF029 (regs [(0, 0x1A)])).1.index = 0x82 ∧ (run 0xF029 (regs [(0, 0xFF)])).1.index = 0x9B := by decide
theorem test_ldB :
    memReadList (run 0xF033 (setIndex (regs [(0, 0xFE)]) 0x0300)).1.mem 0x300 3 = [2, 5, 4] ∧
    memReadList (run 0xF033 (setIndex (regs [(0, 0x64)]) 0x0FFD)).1.mem 0xFFD 3 = [1, 0, 0] := by decide
theorem test_ldB_fault :
    told (run 0xF033 (setIndex (regs [(0, 0x64)]) 0x0FFE)).2 = some (4, 0x0200, 0xF033, 0x1000) ∧
    memReadList (run 0xF033 (setIndex (regs [(0, 0x64)]) 0x0FFE)).1.mem 0xFFE 2 = [0, 0] := by decide
theorem test_stRegs :
    memReadList (run 0xF255 (setIndex (regs [(0, 1), (1, 2), (2, 3), (3, 4)]) 0x0400)).1.mem 0x400 4 =
      [1, 2, 3, 0] := by decide
theorem test_stRegs_fault :
    told (run 0xF155 (setIndex (regs [(0, 0xAB), (1, 0xCD)]) 0x0FFF)).2 = some (4, 0x0200, 0xF155, 0x1000) ∧
    memRead (run 0xF155 (setIndex (regs [(0, 0xAB), (1, 0xCD)]) 0x0FFF)).1.mem 0xFFF = 0 := by decide
theorem test_ldRegs :
    (run 0xF265 (bytesAt 0x300 [2, 5, 4, 9] (setIndex (regs [(3, 0x77)]) 0x0300))).1.v.toList.take 4 =
      [2, 5, 4, 0x77] := by decide
theorem test_ldRegs_fault :
    told (run 0xF165 (bytesAt 0xFFF [0x5A] (setIndex (regs [(0, 0x11)]) 0x0FFF))).2 =
      some (4, 0x0200, 0xF165, 0x1000) ∧
    readReg (run 0xF165 (bytesAt 0xFFF [0x5A] (setIndex (regs [(0, 0x11)]) 0x0FFF))).1 0 = 0x11 := by decide

/-! ### Display (2.5) -/

theorem test_cls :
    (run 0x00E0 (pixelsAt [(0, 0), (63, 31)] (regs [(15, 1)]))).1.fb = State.reset.fb ∧
    readReg (run 0x00E0 (pixelsAt [(0, 0), (63, 31)] (regs [(15, 1)]))).1 15 = 1 := by decide

/-- Both clips: row 0 lights the last two columns of the last row, row 1 is clipped. -/
theorem test_drw_clips :
    (run 0xD012 (bytesAt 0x300 [0xC0, 0xFF] (setIndex (regs [(0, 0x3E), (1, 0x1F)]) 0x300))).1.fb =
      (pixelsAt [(62, 31), (63, 31)] State.reset).fb := by decide

/-- One collision and one new pixel: bit 7 is the leftmost. -/
theorem test_drw_collides :
    (run 0xD011 (bytesAt 0x300 [0x60] (pixelsAt [(0, 0), (1, 0)] (setIndex State.reset 0x300)))).1.fb =
      (pixelsAt [(0, 0), (2, 0)] State.reset).fb ∧
    readReg (run 0xD011 (bytesAt 0x300 [0x60] (pixelsAt [(0, 0), (1, 0)] (setIndex State.reset 0x300)))).1 15 =
      1 := by decide

/-! ### Keypad and timers (2.6) -/

theorem test_skp :
    (run 0xE39E (keysDown [7] (regs [(3, 7)]))).1.pc = 0x0204 ∧
    (run 0xE39E (keysDown [6, 8] (regs [(3, 7)]))).1.pc = 0x0202 := by decide
theorem test_skp_fault :
    told (run 0xE39E (keysDown [0] (regs [(3, 0x10)]))).2 = some (5, 0x0200, 0xE39E, 0x10) := by decide
theorem test_sknp :
    (run 0xE3A1 (regs [(3, 7)])).1.pc = 0x0204 ∧
    (run 0xE3A1 (keysDown [7] (regs [(3, 7)]))).1.pc = 0x0202 := by decide
theorem test_sknp_fault : told (run 0xE3A1 (regs [(3, 0xFF)])).2 = some (5, 0x0200, 0xE3A1, 0xFF) := by decide
theorem test_ldVxK_waits :
    (run 0xF50A (regs [(5, 0xEE)])).1 = (regs [(5, 0xEE)]).withFetchWord 16 0xF50A := by decide
theorem test_ldVxK :
    readReg (run 0xF50A (keysDown [3, 9] (regs [(5, 0xEE)]))).1 5 = 3 ∧
    (run 0xF50A (keysDown [3, 9] (regs [(5, 0xEE)]))).1.pc = 0x0202 ∧
    readReg (run 0xFF0A (keysDown [12, 13] (regs [(15, 0xEE)]))).1 15 = 12 := by decide
theorem test_ldVxDt : readReg (run 0xF107 (setDt State.reset 0x2A)).1 1 = 0x2A := by decide
theorem test_ldDtVx :
    (run 0xF015 (regs [(0, 0x3C)])).1.dt = 0x3C ∧ (run 0xF015 (regs [(0, 0x3C)])).1.st = 0 := by decide
theorem test_ldStVx :
    (run 0xF218 (setDt (regs [(2, 0xFF)]) 3)).1.st = 0xFF ∧
    (run 0xF218 (setDt (regs [(2, 0xFF)]) 3)).1.dt = 3 ∧
    soundActive (run 0xF218 (regs [(2, 5)])).1 = true := by decide

/-! ### The host's operations -/

/-- The `tick_timers` vectors of 2.6. -/
theorem test_tick :
    (tickTimers (setSt (setDt State.reset 0xFF) 1)).dt = 0xFE ∧
    (tickTimers (setSt (setDt State.reset 0xFF) 1)).st = 0 ∧
    (tickTimers State.reset).dt = 0 := by decide

/-- P4's digit 7, from the default table. -/
theorem test_font : memReadList (loadFont Config.defaultFont State.reset).mem 0x73 5 =
    [0xF0, 0x10, 0x20, 0x40, 0x40] := by decide

/-- P2's first word at the entry point. -/
theorem test_launch : fetch (launch Config.defaultFont [0x60, 0xFE]) = .ok 0x60FE := by decide

/-- A boot sequence and a step are legal and clean; 1200 at 0x200 is the end of a run. -/
theorem test_legal_run :
    let ops := [.reset, .loadFont Config.defaultFont, .loadProgram [0x12, 0x00],
      .step (Vector.replicate 16 false) 0, .tickTimers]
    LegalOps ops = true ∧ CleanRun ops State.reset = true ∧
    AtSelfJump (performAll ops State.reset).1 = true := by decide

/-- D34: `reset` at any time starts anew: at the end, in the middle of a boot, and before a second boot with the
loads exchanged. -/
theorem test_reset_at_any_time :
    let boot := [.reset, .loadFont Config.defaultFont, .loadProgram [0x12, 0x00]]
    let idle := HostOp.step (Vector.replicate 16 false) 0
    LegalOps (boot ++ [idle, .reset]) = true ∧
    LegalOps (.reset :: .loadFont Config.defaultFont :: boot) = true ∧
    LegalOps (boot ++ [idle, .reset, .loadProgram [], .loadFont Config.defaultFont, idle]) = true ∧
    LegalOps (boot ++ [idle, .reset, idle]) = false ∧ LegalOps [idle] = false := by decide

/-- D34: a load after the first step is not legal. -/
theorem test_illegal_run :
    LegalOps [.reset, .loadFont Config.defaultFont, .loadProgram [], .tickTimers, .loadProgram []] = false := by
  decide

/-- Row-major order: pixel (3, 2) is bit 131. -/
theorem test_row_major : (fbRowMajor (pixelsAt [(3, 2)] State.reset))[131]? = some true := by decide

/-! ### Witnesses: states and operands that meet the premises of the statements, at the edges of each clause -/

/-- Reset with the word where the step fetches it. -/
def withWord (w : Nat) : State := State.reset.withFetchWord 16 w

/-- Encoding: a well-formed `Bxnn`, a legal word, and a legal word decoded twice. -/
theorem witness_encoding :
    WellFormed (.jpVx 15 0xFFF) = true ∧ decodeWord 0xD123 = .ok (.drw 1 2 3) ∧
    decodeWord 0xB2FF = .ok (.jpVx 2 0x2FF) := by decide

/-- `DecodeFollowsTheMap`: a word that selects a row, and one that selects none. -/
theorem witness_opcodeMap :
    (∃ r ∈ opcodeMap 0x8AB4, (0x8AB4 : Word) &&& r.1 = r.2.1) ∧
    (∀ r ∈ opcodeMap 0x5121, (0x5121 : Word) &&& r.1 ≠ r.2.1) := by decide

/-- `StepRunsDecodedInstruction`: a legal word in the last two bytes. -/
theorem witness_step_runs :
    let s := (setPc State.reset 4094).withFetchWord 16 0x6177
    s.pc.toNat + 1 < 4096 ∧
    decodeWord (wordOfBytes (memRead s.mem s.pc.toNat) (memRead s.mem (s.pc.toNat + 1))) = .ok (.ldImm 1 0x77) := by
  decide

/-- `FetchIsBigEndian` and the fetch clause of `AddressErrorCases`: the three ranges of `pc`. -/
theorem witness_fetch_ranges :
    (setPc State.reset 4094).pc.toNat ≤ 4094 ∧ (setPc State.reset 4095).pc.toNat = 4095 ∧
    4095 < (setPc State.reset 4096).pc.toNat := by decide

/-- `IllegalWordFaults`. -/
theorem witness_illegal_word :
    fetch (withWord 0x812F) = .ok 0x812F ∧ decodeWord 0x812F = .error (.illegal 0x812F) := by decide

/-- The data clauses of `AddressErrorCases` and of the memory instructions: the first range that faults and
the last that does not, and both values of `n`. -/
theorem witness_data_ranges :
    let s := setIndex State.reset
    ((1 : Nibble).toNat > 0 ∧ (s 4096).index.toNat + (1 : Nibble).toNat - 1 > 4095) ∧
    ((2 : Nibble).toNat > 0 ∧ (s 4095).index.toNat + (2 : Nibble).toNat - 1 > 4095) ∧
    (s 4095).index.toNat + (1 : Nibble).toNat - 1 ≤ 4095 ∧
    (s 4094).index.toNat + 2 > 4095 ∧ (s 4093).index.toNat + 2 ≤ 4095 ∧
    (s 4081).index.toNat + (15 : Reg).val > 4095 ∧ (s 4080).index.toNat + (15 : Reg).val ≤ 4095 ∧
    (s 4096).index.toNat + (0 : Reg).val > 4095 ∧ (s 4095).index.toNat + (0 : Reg).val ≤ 4095 ∧
    Memory.wf (s 4093).mem = true := by decide

/-- A cycle that faults at the fetch, at decode and in execute (`FaultingStepLeaves`,
`FaultIdentifiesInstruction`, `FaultsOfEachInstruction`, `FaultDoesNotLatch`, `PcAfterEachInstruction`). -/
theorem witness_cycle_faults_at_fetch :
    ∃ f, cycle (setInputs (setPc State.reset 4095) (Vector.replicate 16 false) 0) = .fault f ∧
      fetch (setPc State.reset 4095) = .error 4096 := ⟨_, rfl, rfl⟩
theorem witness_cycle_faults_at_decode :
    ∃ f, cycle State.reset = .fault f ∧ fetch State.reset = .ok 0 := ⟨_, rfl, rfl⟩
theorem witness_cycle_faults_in_execute :
    ∃ f, cycle (withWord 0x00EE) = .fault f ∧ fetch (withWord 0x00EE) = .ok 0x00EE := ⟨_, rfl, rfl⟩

/-- `FaultDoesNotLatch`: `pc` at the least address that cannot be fetched, two steps of different inputs and a
tick between them. -/
theorem witness_fetch_fault_repeats :
    4095 ≤ (setPc State.reset 4095).pc.toNat ∧
    ∀ op ∈ [HostOp.step (Vector.replicate 16 false) 0, .tickTimers, .step (Vector.replicate 16 true) 0xA7],
      op = .tickTimers ∨ ∃ k r, op = .step k r := by
  refine ⟨by decide, fun op h => ?_⟩
  simp only [List.mem_cons, List.not_mem_nil, or_false] at h
  obtain rfl | rfl | rfl := h
  · exact .inr ⟨_, _, rfl⟩
  · exact .inl rfl
  · exact .inr ⟨_, _, rfl⟩

/-- An instruction that faults, of each kind `FaultsOfEachInstruction` names. -/
theorem witness_exec_faults :
    (∃ f, exec .ret State.reset = .fault f) ∧ (∃ f, exec (.call 0) (stackOf 16 State.reset) = .fault f) ∧
    (∃ f, exec (.drw 0 0 1) (setIndex State.reset 4096) = .fault f) ∧
    (∃ f, exec (.ldB 0) (setIndex State.reset 4094) = .fault f) ∧
    (∃ f, exec (.skp 0) (regs [(0, 16)]) = .fault f) :=
  ⟨⟨_, rfl⟩, ⟨_, rfl⟩, ⟨_, rfl⟩, ⟨_, rfl⟩, ⟨_, rfl⟩⟩

/-- `StepKeepsGoodStates`: a good state with a step to a next state, `pc` at its largest fetchable value. -/
theorem witness_good_step :
    ∃ t, StateInv ((setPc State.reset 4094).withFetchWord 16 0x6177) = true ∧
      step ((setPc State.reset 4094).withFetchWord 16 0x6177) = .next t := ⟨_, by decide, rfl⟩

/-- `HostOperationsKeepGoodStates`: good states at the edges, a full stack and the largest `pc`. -/
theorem witness_good_states :
    StateInv State.reset = true ∧ StateInv (stackOf 16 State.reset) = true ∧
    StateInv (setPc (setStack State.reset [0x1000]) 0x10FE) = true := by decide

/-- `ReturnPopsOrUnderflows`: both clauses. -/
theorem witness_return : (setStack State.reset [0x0206]).stack = 0x0206 :: [] ∧ State.reset.stack = [] := by decide

/-- `CallPushesOrOverflows` and `CallThenReturnComesBack`: room for one entry more, and none. -/
theorem witness_call : sp (stackOf 15 State.reset) < 16 ∧ 16 ≤ sp (stackOf 16 State.reset) := by decide

/-- `SelfJumpChangesNothing`. -/
theorem witness_self_jump :
    fetch (withWord 0x1200) = .ok 0x1200 ∧ decodeWord 0x1200 = .ok (.jp 0x200) ∧
    (withWord 0x1200).pc.toNat = (0x200 : Addr).toNat := by decide

/-- `PcAfterEachInstruction`: the clause of a completing step, and that of a call. -/
theorem witness_pc_after :
    (∃ t, fetch (withWord 0x3100) = .ok 0x3100 ∧ decodeWord 0x3100 = .ok (.seImm 1 0) ∧
      cycle (withWord 0x3100) = .next t) ∧
    (∃ t, fetch (withWord 0x220A) = .ok 0x220A ∧ decodeWord 0x220A = .ok (.call 0x20A) ∧
      cycle (withWord 0x220A) = .next t) := ⟨⟨_, by decide, by decide, rfl⟩, ⟨_, by decide, by decide, rfl⟩⟩

/-- The clauses `x ≠ vf` and `j ≠ vf` of the flag writers, next to VF; `RandomIsMasked`'s two masks. -/
theorem witness_not_vf : (14 : Reg) ≠ vf ∧ (15 : Reg) = vf ∧ (0 : Byte) = 0 ∧ (0xFF : Byte) = 0xFF := by decide

/-- The whole-machine rules: a flag writer, a storing and a drawing instruction that complete
(`VfIsWrittenByItsTableOnly`, `OnlyNamedInstructionsWriteState`). -/
theorem witness_exec_completes :
    (∃ t, exec (.addReg 0 1) (regs [(0, 0xFF), (1, 1)]) = .next t) ∧
    (∃ t, exec (.stRegs 15) (setIndex State.reset 4080) = .next t) ∧
    (∃ t, exec (.drw 0 1 15) (setIndex State.reset 4081) = .next t) := ⟨⟨_, rfl⟩, ⟨_, rfl⟩, ⟨_, rfl⟩⟩

/-- `StoreThenLoadGivesRegistersBack`: all sixteen registers in the last sixteen bytes. -/
theorem witness_store_then_load :
    (setIndex (regs [(0, 1), (15, 0xEE)]) 4080).index.toNat + (15 : Reg).val ≤ 4095 ∧
    Memory.wf (setIndex (regs [(0, 1), (15, 0xEE)]) 4080).mem = true := by decide

/-- `FetchSeesStores`: a fetch across the low end of one byte stored by F055, one across the top end of three
bytes stored by F033, and one at the last address that can be fetched. -/
theorem witness_fetch_sees_stores :
    let s := setIndex (regs [(0, 0x12), (1, 0x08)]) 0x300
    (∃ t, Memory.wf s.mem = true ∧ exec (.stRegs 0) s = .next t ∧ (0x2FF : Word).toNat + 1 < 4096) ∧
    (∃ t, Memory.wf s.mem = true ∧ exec (.ldB 0) s = .next t ∧ (0x302 : Word).toNat + 1 < 4096) ∧
    (∃ t, Memory.wf s.mem = true ∧ exec (.stRegs 1) s = .next t ∧ (4094 : Word).toNat + 1 < 4096) :=
  ⟨⟨_, by decide, rfl, by decide⟩, ⟨_, by decide, rfl, by decide⟩, ⟨_, by decide, rfl, by decide⟩⟩

/-- P7: the word the next fetch reads after `Fx33` stored 01, 02, 03 at 0x206. -/
theorem test_fetch_after_store :
    fetch (setPc (run 0xF033 (setIndex (regs [(0, 0x7B)]) 0x206)).1 0x206) = .ok 0x0102 ∧
    fetch (setPc (run 0xF033 (setIndex (regs [(0, 0x7B)]) 0x206)).1 0x208) = .ok 0x0300 := by decide

/-- `DrawXorsTheMask`: no rows with `I` far out, and the last sprite byte that exists; a draw that collides and
one that does not. -/
theorem witness_draw_ranges :
    ((0 : Nibble) = 0 ∨ (setIndex State.reset 0xFFFF).index.toNat + (0 : Nibble).toNat - 1 ≤ 4095) ∧
    ((15 : Nibble) = 0 ∨ (setIndex State.reset 4081).index.toNat + (15 : Nibble).toNat - 1 ≤ 4095) := by decide

/-- A sprite row 0x80 at column 63 of row 31. -/
def corner : State := bytesAt 0x300 [0x80] (setIndex (regs [(0, 63), (1, 31)]) 0x300)

theorem witness_collides : Collides (pixelsAt [(63, 31)] corner) 0 1 1 := ⟨63, 31, by decide⟩
theorem witness_not_collides : ¬ Collides corner 0 1 1 := by
  rintro ⟨px, py, _, _, h, _⟩
  exact absurd ((pixel_clear px py).symm.trans h) (by decide)

/-- `DrawTwiceRestores`: the first draw leaves its coordinate registers alone and sets a pixel. -/
theorem witness_draw_twice :
    ∃ t, exec (.drw 0 1 1) corner = .next t ∧ readReg t 0 = readReg corner 0 ∧
      readReg t 1 = readReg corner 1 ∧ pixel corner.fb 63 31 = false ∧ pixel t.fb 63 31 = true :=
  ⟨_, rfl, by decide, by decide, by decide, by decide⟩

/-- `KeySkips`: the last key index there is, and the first there is not. -/
theorem witness_key_index :
    (readReg (regs [(3, 15)]) 3).toNat = (15 : Fin 16).val ∧ (readReg (regs [(3, 16)]) 3).toNat > 15 := by decide

/-- `KeyWaitStoresLowestKey`: no key, the lowest of two keys, and the last key alone. -/
theorem witness_key_wait :
    (∀ k : Fin 16, State.reset.keys[k.val] = false) ∧
    ((keysDown [3, 9] State.reset).keys[(3 : Fin 16).val] = true ∧
      ∀ j : Fin 16, j < 3 → (keysDown [3, 9] State.reset).keys[j.val] = false) ∧
    ((keysDown [15] State.reset).keys[(15 : Fin 16).val] = true ∧
      ∀ j : Fin 16, j < 15 → (keysDown [15] State.reset).keys[j.val] = false) := by decide
theorem witness_key_wait_cycle :
    fetch (withWord 0xF50A) = .ok 0xF50A ∧ decodeWord 0xF50A = .ok (.ldVxK 5) ∧
    ∀ k : Fin 16, (withWord 0xF50A).keys[k.val] = false := by decide

/-- `DataReadsStayInTheirRange`: memories that differ just past the three bytes loaded. -/
theorem witness_data_reads :
    let s := bytesAt 0x300 [2, 5, 4, 9] (setIndex State.reset 0x300)
    ∃ t, exec (.ldRegs 2) s = .next t ∧
      ∀ a, s.index.toNat ≤ a → a < s.index.toNat + dataBytes (.ldRegs 2) →
        memRead (memWrite s.mem 0x303 0) a = memRead s.mem a := by
  refine ⟨_, rfl, ?_⟩
  intro a h1 h2
  replace h1 : 0x300 ≤ a := h1
  replace h2 : a < 0x303 := h2
  interval_cases a <;> decide

/-- `OnlyKeyInstructionsReadKeys` and `OnlyRandomReadsRnd`. -/
theorem witness_reads_neither : ¬ readsKeys (.rnd 0 0) ∧ ∀ x nn, Instr.skp 0 ≠ .rnd x nn := by
  simp [readsKeys]

/-- `LoadProgramTruncates`: the last byte kept of an image one byte too long. -/
theorem witness_load_program :
    Memory.wf State.reset.mem = true ∧ 3583 < min (List.replicate 3585 (1 : Byte)).length 3584 :=
  ⟨by decide, by rw [List.length_replicate]; decide⟩

end Sys2Proof.Tests
end

/-! The invariant of the good states: what keeps it, that every cycle leaves it, completing or faulting, and
so that every operation of the host and every sequence of them does. -/

namespace Sys2Proof.Machine

/-! ### The good states, field by field -/

/-- The four facts of a good state (spec/10_state.md R23, R26, R34). -/
theorem stateInv_iff {s : State} :
    StateInv s = true ↔ Memory.wf s.mem = true ∧ sp s ≤ Config.stackDepth ∧
      (∀ t ∈ s.stack, t.toNat ≤ 0x1000) ∧ s.pc.toNat ≤ 0x10FE := by
  simp only [StateInv, goodReturn, Bool.and_eq_true, decide_eq_true_eq, List.all_eq_true, and_assoc]

/-- Only memory, the call stack and `pc` decide whether a state is good. -/
theorem stateInv_of_frame {s t : State} (h : StateInv s = true) (hmem : t.mem = s.mem)
    (hstack : t.stack = s.stack) (hpc : t.pc = s.pc) : StateInv t = true := by
  rw [stateInv_iff, sp] at h ⊢
  rwa [hmem, hstack, hpc]

theorem stateInv_setPc {s : State} {t : Word} (h : StateInv s = true) (ht : t.toNat ≤ 0x10FE) :
    StateInv (setPc s t) = true := by
  obtain ⟨hmem, hlen, hstack, -⟩ := stateInv_iff.mp h
  exact stateInv_iff.mpr ⟨hmem, hlen, hstack, ht⟩

/-- A run of writes inside the memory keeps a good state good. -/
theorem stateInv_setMem_memWriteList {s : State} {a : Nat} {vs : List Byte} (h : StateInv s = true)
    (hlen : a + vs.length ≤ Config.memSize) : StateInv (setMem s (memWriteList s.mem a vs)) = true := by
  obtain ⟨hmem, hrest⟩ := stateInv_iff.mp h
  exact stateInv_iff.mpr ⟨memWriteList_wf hlen hmem, hrest⟩

/-- A push of a return address that a call can push. -/
theorem stateInv_push {s s' : State} {t : Word} (h : StateInv s = true) (ht : t.toNat ≤ 0x1000)
    (hpush : push s t = some s') : StateInv s' = true := by
  obtain ⟨hroom, rfl⟩ := (push_eq_some s).mp hpush
  obtain ⟨hmem, -, hstack, hpc⟩ := stateInv_iff.mp h
  exact stateInv_iff.mpr ⟨hmem, hroom, List.forall_mem_cons.mpr ⟨ht, hstack⟩, hpc⟩

/-- A pop leaves a good state, and its value is one that a call pushed. -/
theorem stateInv_pop {s s' : State} {t : Word} (h : StateInv s = true) (hpop : pop s = some (t, s')) :
    StateInv s' = true ∧ t.toNat ≤ 0x1000 := by
  obtain ⟨rest, hs, rfl⟩ := (pop_eq_some s).mp hpop
  obtain ⟨hmem, hlen, hstack, hpc⟩ := stateInv_iff.mp h
  rw [sp, hs] at hlen
  rw [hs] at hstack
  obtain ⟨ht, hrest⟩ := List.forall_mem_cons.mp hstack
  exact ⟨stateInv_iff.mpr ⟨hmem, (Nat.le_succ _).trans hlen, hrest, hpc⟩, ht⟩

/-! ### The state execute begins with -/

/-- A good state right after the fetch's advance: `pc` is `pc0 + 2` for a `pc0` of which both bytes exist
(spec/30_encoding.md R74, spec/20_memory.md R52). -/
structure GoodAfterFetch (s : State) : Prop where
  good : StateInv s = true
  two_le_pc : 2 ≤ s.pc.toNat
  pc_le : s.pc.toNat ≤ 0x1000

theorem advancePc_goodAfterFetch {s : State} {w : Word} (h : StateInv s = true) (hf : fetch s = .ok w) :
    GoodAfterFetch (advancePc s) := by
  have hbound : s.pc.toNat + 1 < 4096 := (fetch_eq_ok.mp hf).1
  have hpc : (advancePc s).pc.toNat = s.pc.toNat + 2 := by
    rw [advancePc_pc]
    bv_omega
  exact ⟨stateInv_setPc h (by bv_omega), by omega, by omega⟩

/-! ### What an outcome leaves -/

/-- The state an outcome leaves, the next one or the one in a fault's report, satisfies `P`; a refusal
leaves none. -/
def Leaves (P : State → Prop) : Result → Prop
  | .next s => P s
  | .fault f => P (faultReport f).left
  | .refused _ => True

/-- The outcome leaves a good state. -/
abbrev LeavesGood (r : Result) : Prop := Leaves (fun t => StateInv t = true) r

variable {s : State}

theorem skipIf_good (h : GoodAfterFetch s) (c : Bool) : StateInv (skipIf c s) = true := by
  obtain ⟨hgood, -, hpc⟩ := h
  rw [skipIf_eq]
  refine stateInv_setPc hgood ?_
  split <;> bv_omega

theorem setPc_target_good (h : StateInv s = true) (nnn : Addr) :
    StateInv (setPc s (target nnn)) = true := by
  have hnnn := nnn.isLt
  refine stateInv_setPc h ?_
  simp only [target, BitVec.toNat_setWidth]
  omega

/-- The bound 0x10FE of a good `pc` is the largest target of `Bxnn` (spec/10_state.md R23). -/
theorem setPc_offsetTarget_good (h : StateInv s = true) (nnn : Addr) (a : Byte) :
    StateInv (setPc s (offsetTarget nnn a)) = true := by
  have hnnn := nnn.isLt
  have ha := a.isLt
  refine stateInv_setPc h ?_
  simp only [offsetTarget, target, BitVec.toNat_add, BitVec.toNat_setWidth]
  omega

theorem execRet_leavesGood (h : GoodAfterFetch s) : LeavesGood (execRet s) := by
  unfold execRet
  split
  next => exact h.good
  next t s' hpop =>
    obtain ⟨hgood, ht⟩ := stateInv_pop h.good hpop
    exact stateInv_setPc hgood (by omega)

theorem execCall_leavesGood (h : GoodAfterFetch s) (nnn : Addr) : LeavesGood (execCall nnn s) := by
  unfold execCall
  split
  next => exact h.good
  next s' hpush => exact setPc_target_good (stateInv_push h.good h.pc_le hpush) nnn

theorem execDrw_leavesGood (h : GoodAfterFetch s) (x y : Reg) (n : Nibble) :
    LeavesGood (execDrw x y n s) := by
  unfold execDrw
  split
  next => exact h.good
  next => exact stateInv_of_frame h.good rfl rfl rfl

theorem execSkp_leavesGood (h : GoodAfterFetch s) (x : Reg) : LeavesGood (execSkp x s) := by
  unfold execSkp
  dsimp only
  split
  next => exact h.good
  next => exact skipIf_good h _

theorem execSknp_leavesGood (h : GoodAfterFetch s) (x : Reg) : LeavesGood (execSknp x s) := by
  unfold execSknp
  dsimp only
  split
  next => exact h.good
  next => exact skipIf_good h _

/-- With no key down `pc` goes back to the waiting instruction; it does not wrap, as the fetch has just
advanced it. -/
theorem execLdVxK_leavesGood (h : GoodAfterFetch s) (x : Reg) : LeavesGood (execLdVxK x s) := by
  obtain ⟨hgood, htwo, hpc⟩ := h
  simp only [LeavesGood, execLdVxK, Leaves]
  split
  next => exact stateInv_setPc hgood (by bv_omega)
  next => exact stateInv_of_frame hgood rfl rfl rfl

theorem execAddI_leavesGood (h : GoodAfterFetch s) (x : Reg) : LeavesGood (execAddI x s) := by
  simp only [LeavesGood, execAddI, Leaves]
  split
  next => exact stateInv_of_frame h.good rfl rfl rfl
  next => exact stateInv_of_frame h.good rfl rfl rfl

theorem execLdB_leavesGood (h : GoodAfterFetch s) (x : Reg) : LeavesGood (execLdB x s) := by
  unfold execLdB
  split
  next => exact h.good
  next hrange =>
    refine stateInv_setMem_memWriteList h.good ?_
    have := rangeFault_none.mp hrange
    simp only [decimalDigits, List.length_cons, List.length_nil]
    omega

theorem execStRegs_leavesGood (h : GoodAfterFetch s) (x : Reg) : LeavesGood (execStRegs x s) := by
  unfold execStRegs
  split
  next => exact h.good
  next hrange =>
    refine stateInv_setMem_memWriteList h.good ?_
    have := rangeFault_none.mp hrange
    rw [readRegsTo_length]
    omega

theorem execLdRegs_leavesGood (h : GoodAfterFetch s) (x : Reg) : LeavesGood (execLdRegs x s) := by
  unfold execLdRegs
  split
  next => exact h.good
  next =>
    exact stateInv_of_frame h.good (writeRegsFrom_mem ..) (writeRegsFrom_stack ..) (writeRegsFrom_pc ..)

/-- Every instruction, completing or faulting, leaves a good state. -/
theorem exec_leavesGood (h : GoodAfterFetch s) (i : Instr) : LeavesGood (exec i s) := by
  cases i with
  | ret => exact execRet_leavesGood h
  | jp nnn => exact setPc_target_good h.good nnn
  | call nnn => exact execCall_leavesGood h nnn
  | jpVx x nnn => exact setPc_offsetTarget_good h.good nnn _
  | seImm | sneImm | seReg | sneReg => exact skipIf_good h _
  | skp x => exact execSkp_leavesGood h x
  | sknp x => exact execSknp_leavesGood h x
  | ldVxK x => exact execLdVxK_leavesGood h x
  | drw x y n => exact execDrw_leavesGood h x y n
  | addI x => exact execAddI_leavesGood h x
  | ldB x => exact execLdB_leavesGood h x
  | stRegs x => exact execStRegs_leavesGood h x
  | ldRegs x => exact execLdRegs_leavesGood h x
  | cls | ldImm | addImm | ldReg | orReg | andReg | xorReg | addReg | sub | shr | subn | shl | rnd
  | ldI | ldF | ldVxDt | ldDtVx | ldStVx => exact stateInv_of_frame h.good rfl rfl rfl

/-- The spec's step leaves a good state, whichever of the cases of spec/60_exceptions.md R207 ends it. -/
theorem cycle_leavesGood (h : StateInv s = true) : LeavesGood (cycle s) := by
  rcases cycle_cases s with ⟨-, hc⟩ | ⟨w, r, hf, -, hc⟩ | ⟨w, i, hf, -, hc⟩
  · rw [hc]
    exact h
  · rw [hc]
    exact (advancePc_goodAfterFetch h hf).good
  · rw [hc]
    exact exec_leavesGood (advancePc_goodAfterFetch h hf) i

/-! ### The host's operations -/

theorem loadFont_good (font : Vector Byte 80) (h : StateInv s = true) :
    StateInv (loadFont font s) = true :=
  stateInv_setMem_memWriteList h (by simp [Config.fontBase, Config.memSize])

theorem loadProgram_good (bytes : List Byte) (h : StateInv s = true) :
    StateInv (loadProgram bytes s) = true := by
  refine stateInv_setMem_memWriteList h ?_
  simp only [List.length_take, Config.progBase, Config.progMax, Config.memSize]
  omega

theorem reset_good : StateInv State.reset = true := by decide

/-- A step of the host leaves what its cycle leaves; a refusal would leave the state as it was. -/
theorem perform_step_of_leaves {P : State → Prop} {keys : Keypad} {rnd : Byte} (h : P s)
    (hc : Leaves P (cycle (setInputs s keys rnd))) : P (perform (.step keys rnd) s).1 := by
  simp only [perform]
  generalize cycle (setInputs s keys rnd) = r at hc ⊢
  cases r with
  | next t => exact hc
  | fault f => exact hc
  | refused r => exact h

theorem perform_good (op : HostOp) (h : StateInv s = true) : StateInv (perform op s).1 = true := by
  cases op with
  | reset => exact stateInv_of_frame reset_good rfl rfl rfl
  | loadFont font => exact loadFont_good font h
  | loadProgram bytes => exact loadProgram_good bytes h
  | tickTimers => exact stateInv_of_frame h rfl rfl rfl
  | step keys rnd =>
    have hset : StateInv (setInputs s keys rnd) = true := stateInv_of_frame h rfl rfl rfl
    exact perform_step_of_leaves (P := fun t => StateInv t = true) h (cycle_leavesGood hset)

/-- What every operation keeps, every sequence of operations keeps. -/
theorem performAll_keeps {P : State → Prop} (hop : ∀ op s, P s → P (perform op s).1) :
    ∀ (ops : List HostOp) (s : State), P s → P (performAll ops s).1
  | [], _, h => h
  | op :: ops, s, h => performAll_keeps hop ops (perform op s).1 (hop op s h)

/-- Settles O17, by the cases of the operation; a step by the cases of its cycle. -/
theorem hostOperationsKeepGoodStates : Obligations.HostOperationsKeepGoodStates := by
  intro op s h
  exact perform_good op h

/-- Settles O18, by induction on the sequence with O17 for each operation, from the good state of reset. -/
theorem everySequenceReachesGoodStates : Obligations.EverySequenceReachesGoodStates := by
  intro ops
  exact performAll_keeps (P := fun t => StateInv t = true) hostOperationsKeepGoodStates ops _ reset_good

end Sys2Proof.Machine

/-! The state item by item (spec/10_state.md): the good states after a step, reset, `pc`, VF, the host's view
of the framebuffer, and which instructions read the inputs of the step. -/

namespace Sys2Proof.Machine

variable {s t : State}

/-! ### Good states and reset -/

/-- Settles O15, with the good state of reset shown for O18. -/
theorem resetIsGood : Obligations.ResetIsGood := reset_good

/-- Settles O16: the cycle leaves a good state, and the draw of the next inputs touches nothing that decides
whether a state is good. -/
theorem stepKeepsGoodStates : Obligations.StepKeepsGoodStates := by
  intro s t h hstep
  obtain ⟨u, hc, rfl⟩ := step_eq_next.mp hstep
  have hu : LeavesGood (.next u) := hc ▸ cycle_leavesGood h
  exact stateInv_of_frame hu rfl rfl rfl

@[simp] theorem readReg_reset (j : Reg) : readReg State.reset j = 0 := by
  simp [readReg, State.reset]

theorem atReset_reset : AtReset State.reset :=
  ⟨fun _ => rfl, readReg_reset, rfl, rfl, rfl, rfl, rfl, rfl, pixel_clear⟩

/-- The inputs of the next step, which the operation `reset` keeps, are no item of R36. -/
theorem atReset_resetOp (s : State) : AtReset (resetOp s) := atReset_reset

/-- Settles O57, item by item for the state after reset, whose items the operation `reset` restores. -/
theorem resetValues : Obligations.ResetValues :=
  ⟨atReset_reset, fun s => ⟨resetOp s, rfl, atReset_resetOp s⟩⟩

/-! ### The host's view of the framebuffer -/

theorem fbRowMajor_eq_flatten (s : State) : fbRowMajor s = s.fb.flatten.toList := by
  simp [fbRowMajor, Vector.flatten, Vector.toList, Array.toList_flatten, Function.comp_def]

/-- Settles O48: the view is the flattened grid, and 64 * y + x has quotient y and remainder x by 64. -/
theorem rowMajorView : Obligations.RowMajorView := by
  intro s x y
  have hdiv : (64 * y.val + x.val) / 64 = y.val := by omega
  have hmod : (64 * y.val + x.val) % 64 = x.val := by omega
  have hlt : 64 * y.val + x.val < 32 * 64 := by omega
  rw [fbRowMajor_eq_flatten]
  refine ⟨Vector.length_toList, ?_⟩
  rw [Vector.getElem?_toList, Vector.getElem?_eq_getElem hlt, Vector.getElem_flatten]
  simp [hdiv, hmod, fbAt, pixel]

/-! ### How the instructions that can fault end -/

theorem execRet_cases (s : State) :
    (s.stack = [] ∧ execRet s = raise .stackUnderflow .ret 0 s) ∨
    ∃ r rest, s.stack = r :: rest ∧ execRet s = .next (setPc (setStack s rest) r) := by
  cases hs : s.stack with
  | nil => exact .inl ⟨rfl, by simp only [execRet, pop, hs]⟩
  | cons r rest => exact .inr ⟨r, rest, rfl, by simp only [execRet, pop, hs]⟩

theorem execCall_cases (nnn : Addr) (s : State) :
    (Config.stackDepth ≤ sp s ∧ execCall nnn s = raise .stackOverflow (.call nnn) 0 s) ∨
    (sp s < Config.stackDepth ∧
      execCall nnn s = .next (setPc (setStack s (s.pc :: s.stack)) (target nnn))) := by
  by_cases h : sp s < Config.stackDepth
  · exact .inr ⟨h, by simp only [execCall, push, h, if_true]⟩
  · exact .inl ⟨not_lt.mp h, by simp only [execCall, push, h, if_false]⟩

/-- The draw of `Dxyn` in the state `s`: the new framebuffer and whether a set pixel was unset. -/
def drawing (x y : Reg) (n : Nibble) (s : State) : Drawing :=
  drawRows ((readReg s x).toNat % 64) ((readReg s y).toNat % 32)
    (memReadList s.mem (indexBase s) n.toNat) ⟨s.fb, false⟩

theorem execDrw_cases (x y : Reg) (n : Nibble) (s : State) :
    (∃ a, rangeFault (indexBase s) n.toNat = some a ∧
      execDrw x y n s = raise .addressError (.drw x y n) a s) ∨
    (rangeFault (indexBase s) n.toNat = none ∧
      execDrw x y n s =
        .next (writeReg (setFb s (drawing x y n s).fb) vf (flagByte (drawing x y n s).collision))) := by
  cases h : rangeFault (indexBase s) n.toNat with
  | some a => exact .inl ⟨a, rfl, by simp only [execDrw, h]⟩
  | none => exact .inr ⟨rfl, by simp only [execDrw, h, drawing]⟩

theorem execLdB_cases (x : Reg) (s : State) :
    (∃ a, rangeFault (indexBase s) 3 = some a ∧ execLdB x s = raise .addressError (.ldB x) a s) ∨
    (rangeFault (indexBase s) 3 = none ∧
      execLdB x s = .next (setMem s (memWriteList s.mem (indexBase s) (decimalDigits (readReg s x))))) := by
  cases h : rangeFault (indexBase s) 3 with
  | some a => exact .inl ⟨a, rfl, by simp only [execLdB, h]⟩
  | none => exact .inr ⟨rfl, by simp only [execLdB, h]⟩

theorem execStRegs_cases (x : Reg) (s : State) :
    (∃ a, rangeFault (indexBase s) (x.val + 1) = some a ∧
      execStRegs x s = raise .addressError (.stRegs x) a s) ∨
    (rangeFault (indexBase s) (x.val + 1) = none ∧
      execStRegs x s = .next (setMem s (memWriteList s.mem (indexBase s) (readRegsTo s x)))) := by
  cases h : rangeFault (indexBase s) (x.val + 1) with
  | some a => exact .inl ⟨a, rfl, by simp only [execStRegs, h]⟩
  | none => exact .inr ⟨rfl, by simp only [execStRegs, h]⟩

theorem execLdRegs_cases (x : Reg) (s : State) :
    (∃ a, rangeFault (indexBase s) (x.val + 1) = some a ∧
      execLdRegs x s = raise .addressError (.ldRegs x) a s) ∨
    (rangeFault (indexBase s) (x.val + 1) = none ∧
      execLdRegs x s = .next (writeRegsFrom s 0 (memReadList s.mem (indexBase s) (x.val + 1)))) := by
  cases h : rangeFault (indexBase s) (x.val + 1) with
  | some a => exact .inl ⟨a, rfl, by simp only [execLdRegs, h]⟩
  | none => exact .inr ⟨rfl, by simp only [execLdRegs, h]⟩

theorem execSkp_cases (x : Reg) (s : State) :
    (15 < (readReg s x).toNat ∧ execSkp x s = raise .keyIndexError (.skp x) (readReg s x).toNat s) ∨
    ((readReg s x).toNat ≤ 15 ∧
      execSkp x s = .next (skipIf (keyDown s.keys (readReg s x).toNat) s)) := by
  by_cases h : (readReg s x).toNat > 15
  · exact .inl ⟨h, by simp only [execSkp, h, if_true]⟩
  · exact .inr ⟨not_lt.mp h, by simp only [execSkp, h, if_false]⟩

theorem execSknp_cases (x : Reg) (s : State) :
    (15 < (readReg s x).toNat ∧ execSknp x s = raise .keyIndexError (.sknp x) (readReg s x).toNat s) ∨
    ((readReg s x).toNat ≤ 15 ∧
      execSknp x s = .next (skipIf (!keyDown s.keys (readReg s x).toNat) s)) := by
  by_cases h : (readReg s x).toNat > 15
  · exact .inl ⟨h, by simp only [execSknp, h, if_true]⟩
  · exact .inr ⟨not_lt.mp h, by simp only [execSknp, h, if_false]⟩

/-! ### How an instruction that completes ends -/

theorem execRet_eq_next (h : execRet s = .next t) :
    ∃ r rest, s.stack = r :: rest ∧ t = setPc (setStack s rest) r := by
  rcases execRet_cases s with ⟨-, he⟩ | ⟨r, rest, hs, he⟩
  · cases he.symm.trans h
  · cases he.symm.trans h
    exact ⟨r, rest, hs, rfl⟩

theorem execCall_eq_next {nnn : Addr} (h : execCall nnn s = .next t) :
    t = setPc (setStack s (s.pc :: s.stack)) (target nnn) := by
  rcases execCall_cases nnn s with ⟨-, he⟩ | ⟨-, he⟩ <;> cases he.symm.trans h
  rfl

theorem execDrw_eq_next {x y : Reg} {n : Nibble} (h : execDrw x y n s = .next t) :
    t = writeReg (setFb s (drawing x y n s).fb) vf (flagByte (drawing x y n s).collision) := by
  rcases execDrw_cases x y n s with ⟨_, -, he⟩ | ⟨-, he⟩ <;> cases he.symm.trans h
  rfl

theorem execLdB_eq_next {x : Reg} (h : execLdB x s = .next t) :
    t = setMem s (memWriteList s.mem (indexBase s) (decimalDigits (readReg s x))) := by
  rcases execLdB_cases x s with ⟨_, -, he⟩ | ⟨-, he⟩ <;> cases he.symm.trans h
  rfl

theorem execStRegs_eq_next {x : Reg} (h : execStRegs x s = .next t) :
    t = setMem s (memWriteList s.mem (indexBase s) (readRegsTo s x)) := by
  rcases execStRegs_cases x s with ⟨_, -, he⟩ | ⟨-, he⟩ <;> cases he.symm.trans h
  rfl

theorem execLdRegs_eq_next {x : Reg} (h : execLdRegs x s = .next t) :
    t = writeRegsFrom s 0 (memReadList s.mem (indexBase s) (x.val + 1)) := by
  rcases execLdRegs_cases x s with ⟨_, -, he⟩ | ⟨-, he⟩ <;> cases he.symm.trans h
  rfl

theorem execSkp_eq_next {x : Reg} (h : execSkp x s = .next t) :
    (readReg s x).toNat ≤ 15 ∧ t = skipIf (keyDown s.keys (readReg s x).toNat) s := by
  rcases execSkp_cases x s with ⟨-, he⟩ | ⟨hk, he⟩ <;> cases he.symm.trans h
  exact ⟨hk, rfl⟩

theorem execSknp_eq_next {x : Reg} (h : execSknp x s = .next t) :
    (readReg s x).toNat ≤ 15 ∧ t = skipIf (!keyDown s.keys (readReg s x).toNat) s := by
  rcases execSknp_cases x s with ⟨-, he⟩ | ⟨hk, he⟩ <;> cases he.symm.trans h
  exact ⟨hk, rfl⟩

/-! ### Every instruction completes or raises -/

/-- The outcome is a next state, or a fault that instruction `i` raised in the state `s`, whose report is the
argument of its constructor. -/
def CompletesOrRaises (i : Instr) (s : State) (r : Result) : Prop :=
  (∃ t, r = .next t) ∨
    ∃ fault info, (∀ q, faultReport (fault q) = q) ∧ r = raise fault i info s

theorem completesOrRaises_next {i : Instr} {r : Result} (h : r = .next t) : CompletesOrRaises i s r :=
  .inl ⟨t, h⟩

theorem completesOrRaises_raise {i : Instr} {r : Result} {fault : FaultReport → Fault} {info : Nat}
    (h : r = raise fault i info s) (hfault : ∀ q, faultReport (fault q) = q) : CompletesOrRaises i s r :=
  .inr ⟨fault, info, hfault, h⟩

theorem exec_completesOrRaises (i : Instr) (s : State) : CompletesOrRaises i s (exec i s) := by
  cases i with
  | ret =>
    exact (execRet_cases s).elim (fun ⟨_, h⟩ => completesOrRaises_raise h fun _ => rfl)
      fun ⟨_, _, _, h⟩ => completesOrRaises_next h
  | call nnn =>
    exact (execCall_cases nnn s).elim (fun ⟨_, h⟩ => completesOrRaises_raise h fun _ => rfl)
      fun ⟨_, h⟩ => completesOrRaises_next h
  | drw x y n =>
    exact (execDrw_cases x y n s).elim (fun ⟨_, _, h⟩ => completesOrRaises_raise h fun _ => rfl)
      fun ⟨_, h⟩ => completesOrRaises_next h
  | ldB x =>
    exact (execLdB_cases x s).elim (fun ⟨_, _, h⟩ => completesOrRaises_raise h fun _ => rfl)
      fun ⟨_, h⟩ => completesOrRaises_next h
  | stRegs x =>
    exact (execStRegs_cases x s).elim (fun ⟨_, _, h⟩ => completesOrRaises_raise h fun _ => rfl)
      fun ⟨_, h⟩ => completesOrRaises_next h
  | ldRegs x =>
    exact (execLdRegs_cases x s).elim (fun ⟨_, _, h⟩ => completesOrRaises_raise h fun _ => rfl)
      fun ⟨_, h⟩ => completesOrRaises_next h
  | skp x =>
    exact (execSkp_cases x s).elim (fun ⟨_, h⟩ => completesOrRaises_raise h fun _ => rfl)
      fun ⟨_, h⟩ => completesOrRaises_next h
  | sknp x =>
    exact (execSknp_cases x s).elim (fun ⟨_, h⟩ => completesOrRaises_raise h fun _ => rfl)
      fun ⟨_, h⟩ => completesOrRaises_next h
  | cls | jp | jpVx | seImm | sneImm | seReg | sneReg | ldImm | addImm | ldReg | orReg | andReg | xorReg
  | addReg | sub | shr | subn | shl | ldI | rnd | ldVxDt | ldVxK | ldDtVx | ldStVx | addI | ldF =>
    exact completesOrRaises_next rfl

/-- An instruction that faults has changed nothing: the state left is the one execute began with
(spec/60_exceptions.md R207). -/
theorem exec_fault_left {i : Instr} {f : Fault} (h : exec i s = .fault f) : (faultReport f).left = s := by
  rcases exec_completesOrRaises i s with ⟨t, he⟩ | ⟨fault, info, hfault, he⟩
  · cases he.symm.trans h
  · cases he.symm.trans h
    rw [hfault]

/-! ### `pc` after each instruction -/

theorem advancePc_pc_toNat (h : s.pc.toNat + 1 < Config.memSize) :
    (advancePc s).pc.toNat = s.pc.toNat + 2 := by
  simp only [Config.memSize] at h
  rw [advancePc_pc]
  bv_omega

theorem skipIf_advancePc_pc_toNat (h : s.pc.toNat + 1 < Config.memSize) (c : Bool) :
    (skipIf c (advancePc s)).pc.toNat = if c then s.pc.toNat + 4 else s.pc.toNat + 2 := by
  simp only [Config.memSize] at h
  cases c with
  | false => exact advancePc_pc_toNat h
  | true =>
    simp only [skipIf, if_true, setPc_pc, advancePc_pc]
    bv_omega

theorem target_toNat (nnn : Addr) : (target nnn).toNat = nnn.toNat := by
  have := nnn.isLt
  simp only [target, BitVec.toNat_setWidth]
  omega

theorem offsetTarget_toNat (nnn : Addr) (a : Byte) : (offsetTarget nnn a).toNat = nnn.toNat + a.toNat := by
  have := nnn.isLt
  have := a.isLt
  simp only [offsetTarget, BitVec.toNat_add, target_toNat, BitVec.toNat_setWidth]
  omega

/-- The key level a skip tests, as the keypad holds it. -/
theorem getElem?_keys_eq_some {keys : Keypad} {k : Nat} (h : k ≤ 15) (b : Bool) :
    keys[k]? = some b ↔ keyDown keys k = b := by
  have hk : k < 16 := by omega
  rw [keyDown_eq keys hk, Vector.getElem?_eq_getElem hk, Option.some.injEq]

theorem lowestKey_eq_none_iff {keys : Keypad} :
    lowestKey keys = none ↔ ∀ k : Fin 16, keys[k.val] = false := by
  rw [lowestKey_none]
  exact ⟨fun h k => keyDown_eq keys k.isLt ▸ h k k.isLt, fun h k hk => keyDown_eq keys hk ▸ h ⟨k, hk⟩⟩

theorem execLdVxK_pc {x : Reg} (h0 : s.pc.toNat + 1 < Config.memSize)
    (h : execLdVxK x (advancePc s) = .next t) : t.pc.toNat = pcAfter (.ldVxK x) s := by
  cases h
  rw [pcAfter, advancePc_keys]
  cases hk : lowestKey s.keys with
  | none =>
    rw [if_pos (lowestKey_eq_none_iff.mp hk)]
    simp only [setPc_pc, advancePc_pc, BitVec.add_sub_cancel]
  | some k =>
    rw [if_neg fun hno => by simp [lowestKey_eq_none_iff.mpr hno] at hk]
    exact advancePc_pc_toNat h0

/-- The table of spec/10_state.md R24, instruction by instruction, for a `pc0` of which both bytes exist. -/
theorem exec_advancePc_pc {i : Instr} (h0 : s.pc.toNat + 1 < Config.memSize)
    (h : exec i (advancePc s) = .next t) : t.pc.toNat = pcAfter i s := by
  have hskip := skipIf_advancePc_pc_toNat h0
  cases i with
  | ret =>
    obtain ⟨r, rest, hs, rfl⟩ := execRet_eq_next h
    rw [advancePc_stack] at hs
    simp only [pcAfter, hs, setPc_pc, List.headD_cons]
  | jp nnn =>
    cases h
    exact target_toNat nnn
  | call nnn =>
    rw [execCall_eq_next h]
    exact target_toNat nnn
  | jpVx x nnn =>
    cases h
    exact offsetTarget_toNat nnn _
  | seImm | sneImm | seReg | sneReg =>
    cases h
    simp only [hskip, pcAfter, readReg_advancePc, beq_iff_eq, bne_iff_ne]
  | skp x =>
    obtain ⟨hk, rfl⟩ := execSkp_eq_next h
    rw [readReg_advancePc] at hk
    simp only [hskip, pcAfter, getElem?_keys_eq_some hk, readReg_advancePc, advancePc_keys]
  | sknp x =>
    obtain ⟨hk, rfl⟩ := execSknp_eq_next h
    rw [readReg_advancePc] at hk
    simp only [hskip, pcAfter, getElem?_keys_eq_some hk, readReg_advancePc, advancePc_keys,
      Bool.not_eq_true']
  | ldVxK x => exact execLdVxK_pc h0 h
  | drw x y n =>
    rw [execDrw_eq_next h]
    exact advancePc_pc_toNat h0
  | addI x =>
    cases h
    rw [apply_ite State.pc, writeReg_pc, setIndex_pc, ite_self]
    exact advancePc_pc_toNat h0
  | ldB x =>
    rw [execLdB_eq_next h]
    exact advancePc_pc_toNat h0
  | stRegs x =>
    rw [execStRegs_eq_next h]
    exact advancePc_pc_toNat h0
  | ldRegs x =>
    rw [execLdRegs_eq_next h, writeRegsFrom_pc]
    exact advancePc_pc_toNat h0
  | cls | ldImm | addImm | ldReg | orReg | andReg | xorReg | addReg | sub | shr | subn | shl | ldI | rnd
  | ldVxDt | ldDtVx | ldStVx | ldF =>
    cases h
    exact advancePc_pc_toNat h0

theorem cycle_eq_exec {w : Word} {i : Instr} (hf : fetch s = .ok w) (hd : decodeWord w = .ok i) :
    cycle s = exec i (advancePc s) := by
  simp only [cycle, hf, hd]

/-- A cycle that faults after the fetch leaves the fetch's advance alone (spec/60_exceptions.md R207). -/
theorem cycle_fault_left {f : Fault} {w : Word} (h : cycle s = .fault f) (hf : fetch s = .ok w) :
    (faultReport f).left = advancePc s := by
  cases hd : decodeWord w with
  | error r =>
    simp only [cycle, hf, hd] at h
    cases h
    rfl
  | ok i => exact exec_fault_left (cycle_eq_exec hf hd ▸ h)

/-- A cycle that faults at the fetch changes nothing (spec/60_exceptions.md R207). -/
theorem cycle_fetch_fault_left {f : Fault} {a : Nat} (h : cycle s = .fault f) (hf : fetch s = .error a) :
    (faultReport f).left = s := by
  simp only [cycle, hf] at h
  cases h
  rfl

/-- Settles O26: the table by the cases of the instruction, the fault rows by where the cycle faulted. -/
theorem pcAfterEachInstruction : Obligations.PcAfterEachInstruction := by
  refine ⟨fun s t w i hf hd h => ?_, fun s t w nnn hf hd h => ?_, fun s f a h hf => ?_,
    fun s f w h hf => ?_⟩
  · exact exec_advancePc_pc (fetch_eq_ok.mp hf).1 (cycle_eq_exec hf hd ▸ h)
  · have hcall : execCall nnn (advancePc s) = .next t := (cycle_eq_exec hf hd).symm.trans h
    rw [execCall_eq_next hcall]
    rfl
  · rw [cycle_fetch_fault_left h hf]
  · rw [cycle_fault_left h hf, advancePc_pc_toNat (fetch_eq_ok.mp hf).1]

/-! ### VF after each instruction -/

theorem readReg_writeReg_of_ne {x j : Reg} (h : x ≠ j) (b : Byte) :
    readReg (writeReg s x b) j = readReg s j := by
  rw [readReg_writeReg, if_neg h.symm]

@[simp] theorem readReg_writeRegFlag_vf (x : Reg) (b flag : Byte) :
    readReg (writeRegFlag s x b flag) vf = flag :=
  readReg_writeReg_same _ vf flag

theorem shiftedOutRight_toNat (b : Byte) : (shiftedOutRight b).toNat = b.toNat % 2 := by
  rw [shiftedOutRight, flagByte_toNat, ← BitVec.testBit_toNat, Nat.testBit_zero]
  simp only [decide_eq_true_eq]
  split <;> omega

theorem shiftedOutLeft_toNat (b : Byte) : (shiftedOutLeft b).toNat = b.toNat / 128 := by
  have := b.isLt
  rw [shiftedOutLeft, flagByte_toNat, ← BitVec.testBit_toNat, Nat.testBit_eq_decide_div_mod_eq]
  simp only [decide_eq_true_eq]
  split <;> omega

/-- A draw notes a collision exactly when it unsets a set pixel (spec/43_display.md R161). -/
theorem drawing_collision (x y : Reg) (n : Nibble) (s : State) :
    (drawing x y n s).collision = true ↔
      ∃ px py, pixel s.fb px py = true ∧ pixel (drawing x y n s).fb px py = false := by
  obtain ⟨hpixel, hcollision⟩ := drawRows_spec ((readReg s x).toNat % 64)
    (memReadList s.mem (indexBase s) n.toNat) ((readReg s y).toNat % 32) ⟨s.fb, false⟩
  rw [drawing, hcollision]
  constructor
  · rintro (h | ⟨px, py, hx, hy, hset, hhit⟩)
    · cases h
    · exact ⟨px, py, hset, by rw [hpixel px py hx hy, hset, hhit]; rfl⟩
  · rintro ⟨px, py, hset, hunset⟩
    obtain ⟨hx, hy⟩ : px < 64 ∧ py < 32 := by
      by_contra hout
      rw [pixel_outside _ hout] at hset
      cases hset
    rw [hpixel px py hx hy, hset, Bool.true_xor, Bool.not_eq_false'] at hunset
    exact .inr ⟨px, py, hx, hy, hset, hunset⟩

theorem execDrw_vf {x y : Reg} {n : Nibble} (h : execDrw x y n s = .next t) : VfRule (.drw x y n) s t := by
  have hfb : t.fb = (drawing x y n s).fb := by rw [execDrw_eq_next h]; rfl
  have hvf : readReg t vf = flagByte (drawing x y n s).collision := by
    rw [execDrw_eq_next h, readReg_writeReg_same]
  simp only [VfRule, hfb, hvf, ← drawing_collision]
  cases (drawing x y n s).collision with
  | true => exact .inl ⟨rfl, rfl⟩
  | false => exact .inr ⟨rfl, Bool.false_ne_true⟩

theorem execAddI_vf {x : Reg} (h : execAddI x s = .next t) : VfRule (.addI x) s t := by
  cases h
  simp only [VfRule, indexOverflow, decide_eq_true_eq]
  split
  next => exact readReg_writeReg_same _ vf 1
  next => rfl

theorem execLdRegs_vf {x : Reg} (h : execLdRegs x s = .next t) : VfRule (.ldRegs x) s t := by
  intro hx
  have hvf : (vf : Reg).val = 15 := rfl
  have hne : x.val ≠ vf.val := Fin.val_ne_of_ne hx
  rw [execLdRegs_eq_next h, readReg_writeRegsFrom, memReadList_length, if_neg]
  omega

theorem execLdVxK_vf {x : Reg} (h : execLdVxK x s = .next t) : VfRule (.ldVxK x) s t := by
  intro hx
  cases h
  split
  next => rfl
  next => exact readReg_writeReg_of_ne hx _

/-- The table of spec/10_state.md R22 and the sentence after it, instruction by instruction. -/
theorem exec_vf {i : Instr} (h : exec i s = .next t) : VfRule i s t := by
  cases i with
  | addReg | sub | subn =>
    cases h
    simp only [VfRule, readReg_writeRegFlag_vf, carryFlag, notBorrowFlag, flagByte, decide_eq_true_eq]
  | shr | shl =>
    cases h
    simp only [VfRule, readReg_writeRegFlag_vf, shiftedOutRight_toNat, shiftedOutLeft_toNat]
  | drw x y n => exact execDrw_vf h
  | addI x => exact execAddI_vf h
  | ldImm | addImm | ldReg | orReg | andReg | xorReg | rnd | ldVxDt =>
    cases h
    exact fun hx => readReg_writeReg_of_ne hx _
  | ldVxK x => exact execLdVxK_vf h
  | ldRegs x => exact execLdRegs_vf h
  | ret =>
    obtain ⟨r, rest, -, rfl⟩ := execRet_eq_next h
    rfl
  | call nnn =>
    rw [execCall_eq_next h]
    rfl
  | ldB x =>
    rw [execLdB_eq_next h]
    rfl
  | stRegs x =>
    rw [execStRegs_eq_next h]
    rfl
  | seImm | sneImm | seReg | sneReg =>
    cases h
    rw [VfRule, skipIf_eq, readReg_setPc]
  | skp x =>
    rw [VfRule, (execSkp_eq_next h).2, skipIf_eq, readReg_setPc]
  | sknp x =>
    rw [VfRule, (execSknp_eq_next h).2, skipIf_eq, readReg_setPc]
  | cls | jp | jpVx | ldI | ldDtVx | ldStVx | ldF =>
    cases h
    rfl

/-- Settles O36, by the cases of the instruction. -/
theorem vfIsWrittenByItsTableOnly : Obligations.VfIsWrittenByItsTableOnly :=
  fun _ _ _ h => exec_vf h

/-! ### The inputs of the step -/

/-- The state with the inputs of its step changed and everything else as it was. -/
def changeInputs (k : Keypad → Keypad) (r : Byte → Byte) (s : State) : State :=
  { s with keys := k s.keys, rnd := r s.rnd }

section ChangeInputs

variable (k : Keypad → Keypad) (r : Byte → Byte)

@[simp] theorem changeInputs_pc : (changeInputs k r s).pc = s.pc := rfl
@[simp] theorem changeInputs_index : (changeInputs k r s).index = s.index := rfl
@[simp] theorem changeInputs_stack : (changeInputs k r s).stack = s.stack := rfl
@[simp] theorem changeInputs_keys : (changeInputs k r s).keys = k s.keys := rfl
@[simp] theorem readReg_changeInputs (j : Reg) : readReg (changeInputs k r s) j = readReg s j := rfl
@[simp] theorem indexBase_changeInputs : indexBase (changeInputs k r s) = indexBase s := rfl
@[simp] theorem sp_changeInputs : sp (changeInputs k r s) = sp s := rfl

theorem skipIf_changeInputs (c : Bool) (s : State) :
    skipIf c (changeInputs k r s) = changeInputs k r (skipIf c s) := by
  cases c <;> rfl

theorem writeRegsFrom_changeInputs (bs : List Byte) (s : State) (j : Nat) :
    writeRegsFrom (changeInputs k r s) j bs = changeInputs k r (writeRegsFrom s j bs) := by
  rw [writeRegsFrom_eq, writeRegsFrom_eq bs s, writeRegsFrom_v_congr bs (changeInputs k r s) s j rfl]
  rfl

theorem pop_changeInputs (s : State) :
    pop (changeInputs k r s) = (pop s).map fun p => (p.1, changeInputs k r p.2) := by
  rw [pop, pop, changeInputs_stack]
  cases s.stack <;> rfl

theorem push_changeInputs (s : State) (w : Word) :
    push (changeInputs k r s) w = (push s w).map (changeInputs k r) := by
  rw [push, push, sp_changeInputs]
  split <;> rfl

theorem execRet_changeInputs (s : State) :
    execRet (changeInputs k r s) = mapResult (changeInputs k r) (execRet s) := by
  rw [execRet, execRet, pop_changeInputs]
  cases pop s <;> rfl

theorem execCall_changeInputs (nnn : Addr) (s : State) :
    execCall nnn (changeInputs k r s) = mapResult (changeInputs k r) (execCall nnn s) := by
  rw [execCall, execCall, changeInputs_pc, push_changeInputs]
  cases push s s.pc <;> rfl

theorem execDrw_changeInputs (x y : Reg) (n : Nibble) (s : State) :
    execDrw x y n (changeInputs k r s) = mapResult (changeInputs k r) (execDrw x y n s) := by
  rw [execDrw, execDrw, indexBase_changeInputs]
  cases rangeFault (indexBase s) n.toNat <;> rfl

theorem execLdB_changeInputs (x : Reg) (s : State) :
    execLdB x (changeInputs k r s) = mapResult (changeInputs k r) (execLdB x s) := by
  rw [execLdB, execLdB, indexBase_changeInputs]
  cases rangeFault (indexBase s) 3 <;> rfl

theorem execStRegs_changeInputs (x : Reg) (s : State) :
    execStRegs x (changeInputs k r s) = mapResult (changeInputs k r) (execStRegs x s) := by
  rw [execStRegs, execStRegs, indexBase_changeInputs]
  cases rangeFault (indexBase s) (x.val + 1) <;> rfl

theorem execLdRegs_changeInputs (x : Reg) (s : State) :
    execLdRegs x (changeInputs k r s) = mapResult (changeInputs k r) (execLdRegs x s) := by
  rw [execLdRegs, execLdRegs, indexBase_changeInputs, writeRegsFrom_changeInputs]
  cases rangeFault (indexBase s) (x.val + 1) <;> rfl

theorem execAddI_changeInputs (x : Reg) (s : State) :
    execAddI x (changeInputs k r s) = mapResult (changeInputs k r) (execAddI x s) := by
  rw [execAddI, execAddI, readReg_changeInputs, changeInputs_index]
  split <;> rfl

/-- `Ex9E` reads the keypad and not the random byte. -/
theorem execSkp_changeRnd (x : Reg) (s : State) :
    execSkp x (changeInputs id r s) = mapResult (changeInputs id r) (execSkp x s) := by
  simp only [execSkp, readReg_changeInputs, changeInputs_keys, id_eq, skipIf_changeInputs]
  split <;> rfl

/-- `ExA1` reads the keypad and not the random byte. -/
theorem execSknp_changeRnd (x : Reg) (s : State) :
    execSknp x (changeInputs id r s) = mapResult (changeInputs id r) (execSknp x s) := by
  simp only [execSknp, readReg_changeInputs, changeInputs_keys, id_eq, skipIf_changeInputs]
  split <;> rfl

/-- `Fx0A` reads the keypad and not the random byte. -/
theorem execLdVxK_changeRnd (x : Reg) (s : State) :
    execLdVxK x (changeInputs id r s) = mapResult (changeInputs id r) (execLdVxK x s) := by
  rw [execLdVxK, execLdVxK, changeInputs_keys, id_eq]
  cases lowestKey s.keys <;> rfl

/-- Changed inputs change the outcome of an instruction in those inputs alone, where the keypad is kept for
the three instructions that read it and the random byte for `Cxnn` (spec/10_state.md R30, R31). -/
theorem exec_changeInputs {k : Keypad → Keypad} {r : Byte → Byte} (i : Instr) (s : State)
    (hkeys : readsKeys i → k = id) (hrnd : ∀ x nn, i = .rnd x nn → r = id) :
    exec i (changeInputs k r s) = mapResult (changeInputs k r) (exec i s) := by
  cases i with
  | rnd x nn =>
    obtain rfl := hrnd x nn rfl
    rfl
  | skp x =>
    obtain rfl := hkeys ⟨x, .inl rfl⟩
    exact execSkp_changeRnd r x s
  | sknp x =>
    obtain rfl := hkeys ⟨x, .inr (.inl rfl)⟩
    exact execSknp_changeRnd r x s
  | ldVxK x =>
    obtain rfl := hkeys ⟨x, .inr (.inr rfl)⟩
    exact execLdVxK_changeRnd r x s
  | ret => exact execRet_changeInputs k r s
  | call nnn => exact execCall_changeInputs k r nnn s
  | seImm | sneImm | seReg | sneReg => exact congrArg Host.Outcome.next (skipIf_changeInputs k r _ s)
  | drw x y n => exact execDrw_changeInputs k r x y n s
  | addI x => exact execAddI_changeInputs k r x s
  | ldB x => exact execLdB_changeInputs k r x s
  | stRegs x => exact execStRegs_changeInputs k r x s
  | ldRegs x => exact execLdRegs_changeInputs k r x s
  | cls | jp | jpVx | ldImm | addImm | ldReg | orReg | andReg | xorReg | addReg | sub | shr | subn | shl
  | ldI | ldF | ldVxDt | ldDtVx | ldStVx => rfl

end ChangeInputs

/-- Settles O55: the keypad replaced and the random byte kept. -/
theorem onlyKeyInstructionsReadKeys : Obligations.OnlyKeyInstructionsReadKeys :=
  fun i s k hi =>
    exec_changeInputs (k := fun _ => k) (r := id) i s (fun h => absurd h hi) fun _ _ _ => rfl

/-- Settles O56: the random byte replaced and the keypad kept. -/
theorem onlyRandomReadsRnd : Obligations.OnlyRandomReadsRnd :=
  fun i s r hi =>
    exec_changeInputs (k := id) (r := fun _ => r) i s (fun _ => rfl) fun x nn h => absurd h (hi x nn)

end Sys2Proof.Machine

/-! Memory (spec/20_memory.md): the fetch, who writes what, what a fetch reads after a store, and that an
instruction reads no byte beyond its own. -/

namespace Sys2Proof.Machine

variable {s t : State}

/-- Settles O7: the two bytes at `pc` where both exist, else the lowest address that does not. -/
theorem fetchIsBigEndian : Obligations.FetchIsBigEndian := by
  intro s
  have hsize : Config.memSize = 4096 := rfl
  refine ⟨fun h => ⟨_, fetch_ok (by omega), wordOfBytes_toNat _ _⟩, fun h => ?_, fun h => ?_⟩
  · rw [fetch_error (by omega), h]
    rfl
  · rw [fetch_error (by omega), Nat.max_eq_left (by omega)]

/-! ### Who writes what -/

/-- Settles O53, by the cases of the instruction: the state each one ends in names the fields it writes. -/
theorem onlyNamedInstructionsWriteState : Obligations.OnlyNamedInstructionsWriteState := by
  intro i s t h
  cases i with
  | ret =>
    obtain ⟨r, rest, -, rfl⟩ := execRet_eq_next h
    simp
  | call nnn =>
    rw [execCall_eq_next h]
    simp
  | drw x y n =>
    rw [execDrw_eq_next h]
    simp
  | ldB x =>
    rw [execLdB_eq_next h]
    simp
  | stRegs x =>
    rw [execStRegs_eq_next h]
    simp
  | ldRegs x =>
    rw [execLdRegs_eq_next h]
    simp
  | skp x =>
    rw [(execSkp_eq_next h).2, skipIf_eq]
    simp
  | sknp x =>
    rw [(execSknp_eq_next h).2, skipIf_eq]
    simp
  | seImm | sneImm | seReg | sneReg =>
    cases h
    simp [skipIf_eq]
  | ldVxK x =>
    cases h
    cases lowestKey s.keys <;> simp
  | addI x =>
    cases h
    split <;> simp
  | cls | jp | jpVx | ldImm | addImm | ldReg | orReg | andReg | xorReg | addReg | sub | shr | subn | shl
  | ldI | rnd | ldVxDt | ldDtVx | ldStVx | ldF =>
    cases h
    simp

/-- An instruction with data at `I` completes exactly when the whole range exists (spec/20_memory.md R57);
the premise is how the instruction ends, as `execDrw_cases` and its like say it. -/
theorem eq_next_iff_inRange {r : Result} {i : Instr} {base k : Nat} {u : State}
    (hcases : (∃ a, rangeFault base k = some a ∧ r = raise .addressError i a s) ∨
      (rangeFault base k = none ∧ r = .next u)) :
    r = .next t ↔ rangeFault base k = none ∧ t = u := by
  rcases hcases with ⟨a, hrange, rfl⟩ | ⟨hrange, rfl⟩
  · simp [hrange, raise_eq]
  · simp [hrange, eq_comm]

/-! ### What a fetch reads after a store -/

/-- The digits the model stores are those of spec/42_index_memory.md R143, taken of the number. -/
theorem decimalDigits_eq (a : Byte) :
    decimalDigits a =
      [BitVec.ofNat 8 (a.toNat / 100), BitVec.ofNat 8 (a.toNat / 10 % 10), BitVec.ofNat 8 (a.toNat % 10)] := by
  simp only [decimalDigits, List.cons.injEq, and_true, ← BitVec.toNat_inj, BitVec.toNat_udiv,
    BitVec.toNat_umod, BitVec.toNat_ofNat, BitVec.reduceToNat]
  omega

/-- The bytes at `I` after they are stored there. -/
theorem memRead_store (hwf : Memory.wf s.mem = true) {l : List Byte}
    (hlen : indexBase s + l.length ≤ Config.memSize) (a : Nat) :
    memRead (memWriteList s.mem (indexBase s) l) a = byteAfter s l a :=
  memRead_memWriteList a hlen hwf

theorem byteAfter_nil (s : State) (a : Nat) : byteAfter s [] a = memRead s.mem a := by
  rw [byteAfter, List.length_nil, if_neg (by omega)]

theorem execLdB_memory {x : Reg} (hwf : Memory.wf s.mem = true) (h : execLdB x s = .next t) (a : Nat) :
    memRead t.mem a = byteAfter s (storedBytes (.ldB x) s) a := by
  obtain ⟨hrange, rfl⟩ := (eq_next_iff_inRange (execLdB_cases x s)).mp h
  rw [storedBytes, ← decimalDigits_eq]
  refine memRead_store hwf ?_ a
  exact (rangeFault_none.mp hrange).resolve_left (by decide)

theorem execStRegs_memory {x : Reg} (hwf : Memory.wf s.mem = true) (h : execStRegs x s = .next t) (a : Nat) :
    memRead t.mem a = byteAfter s (storedBytes (.stRegs x) s) a := by
  obtain ⟨hrange, rfl⟩ := (eq_next_iff_inRange (execStRegs_cases x s)).mp h
  have hbound := (rangeFault_none.mp hrange).resolve_left (Nat.succ_ne_zero _)
  exact memRead_store hwf (by rwa [readRegsTo_length]) a

/-- Memory after any instruction that completes: the bytes it stores at `I`, all others as before. -/
theorem exec_memory {i : Instr} (hwf : Memory.wf s.mem = true) (h : exec i s = .next t) (a : Nat) :
    memRead t.mem a = byteAfter s (storedBytes i s) a := by
  have hkeep := (onlyNamedInstructionsWriteState i s t h).1
  cases i with
  | ldB x => exact execLdB_memory hwf h a
  | stRegs x => exact execStRegs_memory hwf h a
  | _ => rw [hkeep (by simp), storedBytes, byteAfter_nil]

/-- Settles O44: both bytes fetched are bytes of the memory the instruction left. -/
theorem fetchSeesStores : Obligations.FetchSeesStores := by
  intro i s t p hwf h hp
  rw [← exec_memory hwf h, ← exec_memory hwf h]
  exact fetch_ok (s := { t with pc := p }) hp

/-! ### What an instruction reads -/

/-- Two memories hold the same `k` bytes from address `base` up. -/
def AgreeOn (base k : Nat) (m n : Memory) : Prop :=
  ∀ a, base ≤ a → a < base + k → memRead m a = memRead n a

theorem memReadList_congr {m n : Memory} {base k : Nat} (h : AgreeOn base k m n) :
    memReadList m base k = memReadList n base k := by
  refine List.map_congr_left fun j hj => h _ (Nat.le_add_right base j) ?_
  exact Nat.add_lt_add_left (List.mem_range.mp hj) base

section SetMem

variable (m : Memory)

@[simp] theorem indexBase_setMem : indexBase (setMem s m) = indexBase s := rfl

theorem skipIf_setMem (c : Bool) (s : State) : skipIf c (setMem s m) = setMem (skipIf c s) m := by
  cases c <;> rfl

theorem writeRegsFrom_setMem (bs : List Byte) (s : State) (j : Nat) :
    writeRegsFrom (setMem s m) j bs = setMem (writeRegsFrom s j bs) m := by
  rw [writeRegsFrom_eq, writeRegsFrom_eq bs s, writeRegsFrom_v_congr bs (setMem s m) s j rfl]
  rfl

theorem execRet_setMem (h : execRet s = .next t) : execRet (setMem s m) = .next (setMem t m) := by
  obtain ⟨r, rest, hs, rfl⟩ := execRet_eq_next h
  simp only [execRet, pop, setMem_stack, hs]
  rfl

theorem execCall_setMem {nnn : Addr} (h : execCall nnn s = .next t) :
    execCall nnn (setMem s m) = .next (setMem t m) := by
  rcases execCall_cases nnn s with ⟨-, he⟩ | ⟨hroom, he⟩ <;> cases he.symm.trans h
  have hroom' : sp (setMem s m) < Config.stackDepth := hroom
  simp only [execCall, push, hroom', if_true]
  rfl

theorem execSkp_setMem {x : Reg} (h : execSkp x s = .next t) :
    execSkp x (setMem s m) = .next (setMem t m) := by
  obtain ⟨hk, rfl⟩ := execSkp_eq_next h
  simp only [execSkp, readReg_setMem, if_neg (not_lt.mpr hk), skipIf_setMem, setMem_keys]

theorem execSknp_setMem {x : Reg} (h : execSknp x s = .next t) :
    execSknp x (setMem s m) = .next (setMem t m) := by
  obtain ⟨hk, rfl⟩ := execSknp_eq_next h
  simp only [execSknp, readReg_setMem, if_neg (not_lt.mpr hk), skipIf_setMem, setMem_keys]

theorem execLdVxK_setMem {x : Reg} (h : execLdVxK x s = .next t) :
    execLdVxK x (setMem s m) = .next (setMem t m) := by
  cases h
  rw [execLdVxK, setMem_keys]
  cases lowestKey s.keys <;> rfl

theorem execAddI_setMem {x : Reg} (h : execAddI x s = .next t) :
    execAddI x (setMem s m) = .next (setMem t m) := by
  cases h
  rw [execAddI, readReg_setMem, setMem_index]
  split <;> rfl

/-- `Fx33` reads no memory: its store lands in the memory it finds. -/
theorem execLdB_setMem {x : Reg} (h : execLdB x s = .next t) :
    ∃ n, execLdB x (setMem s m) = .next (setMem t n) := by
  obtain ⟨hrange, rfl⟩ := (eq_next_iff_inRange (execLdB_cases x s)).mp h
  exact ⟨_, (eq_next_iff_inRange (execLdB_cases x (setMem s m))).mpr ⟨hrange, rfl⟩⟩

/-- `Fx55` reads no memory: its store lands in the memory it finds. -/
theorem execStRegs_setMem {x : Reg} (h : execStRegs x s = .next t) :
    ∃ n, execStRegs x (setMem s m) = .next (setMem t n) := by
  obtain ⟨hrange, rfl⟩ := (eq_next_iff_inRange (execStRegs_cases x s)).mp h
  exact ⟨_, (eq_next_iff_inRange (execStRegs_cases x (setMem s m))).mpr ⟨hrange, rfl⟩⟩

variable {m}

theorem drawing_setMem (x y : Reg) {n : Nibble} (hm : AgreeOn (indexBase s) n.toNat m s.mem) :
    drawing x y n (setMem s m) = drawing x y n s := by
  rw [drawing, drawing, setMem_mem, indexBase_setMem, memReadList_congr hm]
  rfl

/-- `Dxyn` reads the `n` sprite bytes alone. -/
theorem execDrw_setMem {x y : Reg} {n : Nibble} (hm : AgreeOn (indexBase s) n.toNat m s.mem)
    (h : execDrw x y n s = .next t) : execDrw x y n (setMem s m) = .next (setMem t m) := by
  obtain ⟨hrange, rfl⟩ := (eq_next_iff_inRange (execDrw_cases x y n s)).mp h
  refine (eq_next_iff_inRange (execDrw_cases x y n (setMem s m))).mpr ⟨hrange, ?_⟩
  rw [drawing_setMem x y hm]
  rfl

/-- `Fx65` reads the bytes it loads alone. -/
theorem execLdRegs_setMem {x : Reg} (hm : AgreeOn (indexBase s) (x.val + 1) m s.mem)
    (h : execLdRegs x s = .next t) : execLdRegs x (setMem s m) = .next (setMem t m) := by
  obtain ⟨hrange, rfl⟩ := (eq_next_iff_inRange (execLdRegs_cases x s)).mp h
  refine (eq_next_iff_inRange (execLdRegs_cases x (setMem s m))).mpr ⟨hrange, ?_⟩
  rw [setMem_mem, indexBase_setMem, memReadList_congr hm, writeRegsFrom_setMem]

/-- In a memory that agrees on the instruction's own bytes at `I`, the instruction completes as before in
every item but memory. -/
theorem exec_setMem {i : Instr} (hm : AgreeOn (indexBase s) (dataBytes i) m s.mem)
    (h : exec i s = .next t) : ∃ n, exec i (setMem s m) = .next (setMem t n) := by
  cases i with
  | ldB x => exact execLdB_setMem m h
  | stRegs x => exact execStRegs_setMem m h
  | drw x y n => exact ⟨m, execDrw_setMem hm h⟩
  | ldRegs x => exact ⟨m, execLdRegs_setMem hm h⟩
  | ret => exact ⟨m, execRet_setMem m h⟩
  | call nnn => exact ⟨m, execCall_setMem m h⟩
  | skp x => exact ⟨m, execSkp_setMem m h⟩
  | sknp x => exact ⟨m, execSknp_setMem m h⟩
  | ldVxK x => exact ⟨m, execLdVxK_setMem m h⟩
  | addI x => exact ⟨m, execAddI_setMem m h⟩
  | seImm | sneImm | seReg | sneReg =>
    cases h
    exact ⟨m, congrArg Host.Outcome.next (skipIf_setMem m _ s)⟩
  | cls | jp | jpVx | ldImm | addImm | ldReg | orReg | andReg | xorReg | addReg | sub | shr | subn | shl
  | ldI | rnd | ldVxDt | ldDtVx | ldStVx | ldF =>
    cases h
    exact ⟨m, rfl⟩

end SetMem

/-- Settles O54: the two runs end in states that differ in memory alone. -/
theorem dataReadsStayInTheirRange : Obligations.DataReadsStayInTheirRange := by
  intro i s t m h hm
  obtain ⟨n, hn⟩ := exec_setMem hm h
  exact ⟨setMem t n, hn, rfl, rfl, rfl, rfl, rfl, rfl, rfl⟩

end Sys2Proof.Machine

/-! Encoding (spec/30_encoding.md): the decoder and the encoder are inverse to each other, the opcode map, the
illegal words, and the step that runs what it decodes. -/

namespace Sys2Proof

/-! ### The fields of an encoded word -/

@[simp] theorem fieldN1_encodeNnn (op : Nibble) (nnn : Addr) : fieldN1 (encodeNnn op nnn) = op := by
  apply BitVec.eq_of_toNat_eq
  rw [fieldN1_toNat, encodeNnn_toNat]
  omega

@[simp] theorem fieldNnn_encodeNnn (op : Nibble) (nnn : Addr) : fieldNnn (encodeNnn op nnn) = nnn := by
  apply BitVec.eq_of_toNat_eq
  rw [fieldNnn_toNat, encodeNnn_toNat]
  omega

@[simp] theorem fieldN1_encodeXnn (op : Nibble) (x : Reg) (nn : Byte) : fieldN1 (encodeXnn op x nn) = op :=
  fieldN1_encodeNnn op _

@[simp] theorem fieldX_encodeXnn (op : Nibble) (x : Reg) (nn : Byte) : fieldX (encodeXnn op x nn) = x := by
  apply Fin.ext
  rw [fieldX_val, encodeXnn_toNat]
  omega

@[simp] theorem fieldNn_encodeXnn (op : Nibble) (x : Reg) (nn : Byte) : fieldNn (encodeXnn op x nn) = nn := by
  apply BitVec.eq_of_toNat_eq
  rw [fieldNn_toNat, encodeXnn_toNat]
  omega

@[simp] theorem fieldN1_encodeXyn (op : Nibble) (x y : Reg) (n : Nibble) :
    fieldN1 (encodeXyn op x y n) = op :=
  fieldN1_encodeNnn op _

@[simp] theorem fieldX_encodeXyn (op : Nibble) (x y : Reg) (n : Nibble) :
    fieldX (encodeXyn op x y n) = x :=
  fieldX_encodeXnn op x _

@[simp] theorem fieldY_encodeXyn (op : Nibble) (x y : Reg) (n : Nibble) :
    fieldY (encodeXyn op x y n) = y := by
  apply Fin.ext
  rw [fieldY_val, encodeXyn_toNat]
  omega

@[simp] theorem fieldN_encodeXyn (op : Nibble) (x y : Reg) (n : Nibble) :
    fieldN (encodeXyn op x y n) = n := by
  apply BitVec.eq_of_toNat_eq
  rw [fieldN_toNat, encodeXyn_toNat]
  omega

/-- The register of `Bxnn`, read from the word, is the one `nnn[11:8]` names (spec/30_encoding.md R72). -/
theorem fieldX_val_eq_fieldNnn (w : Word) : (fieldX w).val = (fieldNnn w).toNat / 256 := by
  rw [fieldX_val, fieldNnn_toNat]
  omega

theorem fieldX_encodeNnn (op : Nibble) {x : Reg} {nnn : Addr} (hx : x.val = nnn.toNat / 256) :
    fieldX (encodeNnn op nnn) = x := by
  apply Fin.ext
  rw [fieldX_val_eq_fieldNnn, fieldNnn_encodeNnn, hx]

/-! ### A word put together again from its fields -/

variable {w : Word} {op : Nibble}

theorem encodeNnn_of_fields (hop : fieldN1 w = op) : encodeNnn op (fieldNnn w) = w := by
  apply BitVec.eq_of_toNat_eq
  rw [← hop, encodeNnn_toNat, fieldN1_toNat, fieldNnn_toNat]
  omega

theorem encodeXnn_of_fields {nn : Byte} (hop : fieldN1 w = op) (hnn : fieldNn w = nn) :
    encodeXnn op (fieldX w) nn = w := by
  apply BitVec.eq_of_toNat_eq
  rw [← hop, ← hnn, encodeXnn_toNat, fieldN1_toNat, fieldX_val, fieldNn_toNat]
  omega

theorem encodeXyn_of_fields {n : Nibble} (hop : fieldN1 w = op) (hn : fieldN w = n) :
    encodeXyn op (fieldX w) (fieldY w) n = w := by
  apply BitVec.eq_of_toNat_eq
  rw [← hop, ← hn, encodeXyn_toNat, fieldN1_toNat, fieldX_val, fieldY_val, fieldN_toNat]
  omega

/-! ### Decode after encode -/

theorem decodeWord_encode {i : Instr} (h : WellFormed i = true) : decodeWord (encode i) = .ok i := by
  cases i with
  | cls | ret => rfl
  | jp | call | ldI => simp [encode, decodeWord]
  | jpVx x nnn =>
    have hx : x.val = nnn.toNat / 256 := beq_iff_eq.mp h
    simp [encode, decodeWord, fieldX_encodeNnn _ hx]
  | seImm | sneImm | ldImm | addImm | rnd | drw => simp [encode, decodeWord]
  | seReg | sneReg => simp [encode, decodeWord, decodeXY0]
  | ldReg | orReg | andReg | xorReg | addReg | sub | shr | subn | shl =>
    simp [encode, decodeWord, decodeFamily8]
  | skp | sknp => simp [encode, decodeWord, decodeFamilyE]
  | ldVxDt | ldVxK | ldDtVx | ldStVx | addI | ldF | ldB | stRegs | ldRegs =>
    simp [encode, decodeWord, decodeFamilyF]

/-! ### Encode after decode -/

/-- An answer of the decoder loses nothing of the word: the instruction is well formed and its word is `w`,
or `w` is refused as illegal. -/
def Faithful (w : Word) : Except DecodeReject Instr → Prop
  | .ok i => encode i = w ∧ WellFormed i = true
  | .error e => e = .illegal w

theorem decodeFamily0_faithful : Faithful w (decodeFamily0 w) := by
  unfold decodeFamily0
  split
  next hw => exact ⟨(BitVec.eq_of_toNat_eq hw).symm, rfl⟩
  next hw => exact ⟨(BitVec.eq_of_toNat_eq hw).symm, rfl⟩
  next => rfl

/-- Families 5 and 9, whose instruction `i` is the decoder's argument. -/
theorem decodeXY0_faithful {i : Instr} (hi : encode i = encodeXyn op (fieldX w) (fieldY w) 0)
    (hwf : WellFormed i = true) (hop : fieldN1 w = op) : Faithful w (decodeXY0 i w) := by
  unfold decodeXY0
  split
  next hn => exact ⟨hi.trans (encodeXyn_of_fields hop (BitVec.eq_of_toNat_eq hn)), hwf⟩
  next => rfl

theorem decodeFamily8_faithful (hop : fieldN1 w = 0x8) : Faithful w (decodeFamily8 w) := by
  unfold decodeFamily8
  split
  case h_10 => rfl
  all_goals
    rename_i hn
    exact ⟨encodeXyn_of_fields hop (BitVec.eq_of_toNat_eq hn), rfl⟩

theorem decodeFamilyE_faithful (hop : fieldN1 w = 0xE) : Faithful w (decodeFamilyE w) := by
  unfold decodeFamilyE
  split
  case h_3 => rfl
  all_goals
    rename_i hnn
    exact ⟨encodeXnn_of_fields hop (BitVec.eq_of_toNat_eq hnn), rfl⟩

theorem decodeFamilyF_faithful (hop : fieldN1 w = 0xF) : Faithful w (decodeFamilyF w) := by
  unfold decodeFamilyF
  split
  case h_10 => rfl
  all_goals
    rename_i hnn
    exact ⟨encodeXnn_of_fields hop (BitVec.eq_of_toNat_eq hnn), rfl⟩

theorem decodeWord_faithful (w : Word) : Faithful w (decodeWord w) := by
  have hop {k : Nibble} (h : (fieldN1 w).toNat = k.toNat) : fieldN1 w = k := BitVec.eq_of_toNat_eq h
  unfold decodeWord
  split
  next => exact decodeFamily0_faithful
  next h => exact ⟨encodeNnn_of_fields (hop h), rfl⟩
  next h => exact ⟨encodeNnn_of_fields (hop h), rfl⟩
  next h => exact ⟨encodeXnn_of_fields (hop h) rfl, rfl⟩
  next h => exact ⟨encodeXnn_of_fields (hop h) rfl, rfl⟩
  next h => exact decodeXY0_faithful rfl rfl (hop h)
  next h => exact ⟨encodeXnn_of_fields (hop h) rfl, rfl⟩
  next h => exact ⟨encodeXnn_of_fields (hop h) rfl, rfl⟩
  next h => exact decodeFamily8_faithful (hop h)
  next h => exact decodeXY0_faithful rfl rfl (hop h)
  next h => exact ⟨encodeNnn_of_fields (hop h), rfl⟩
  next h => exact ⟨encodeNnn_of_fields (hop h), beq_iff_eq.mpr (fieldX_val_eq_fieldNnn w)⟩
  next h => exact ⟨encodeXnn_of_fields (hop h) rfl, rfl⟩
  next h => exact ⟨encodeXyn_of_fields (hop h) rfl, rfl⟩
  next h => exact decodeFamilyE_faithful (hop h)
  next h => exact decodeFamilyF_faithful (hop h)
  next => rfl

/-- A word decodes to an instruction exactly when the instruction is well formed and the word is its own. -/
theorem decodeWord_eq_ok_iff {i : Instr} :
    decodeWord w = .ok i ↔ encode i = w ∧ WellFormed i = true := by
  constructor
  · intro h
    have hw := decodeWord_faithful w
    rwa [h] at hw
  · rintro ⟨rfl, hwf⟩
    exact decodeWord_encode hwf

/-- The one reason for which a word is refused. -/
theorem decodeWord_eq_error {e : DecodeReject} (h : decodeWord w = .error e) : e = .illegal w := by
  have hw := decodeWord_faithful w
  rwa [h] at hw

/-! ### The illegal words of each family -/

theorem decodeFamily0_eq_illegal :
    decodeFamily0 w = .error (.illegal w) ↔ w.toNat ≠ 0x00E0 ∧ w.toNat ≠ 0x00EE := by
  unfold decodeFamily0
  split <;> simp_all

theorem decodeXY0_eq_illegal {i : Instr} :
    decodeXY0 i w = .error (.illegal w) ↔ w.toNat % 16 ≠ 0 := by
  rw [← fieldN_toNat]
  unfold decodeXY0
  split <;> simp_all

theorem decodeFamily8_eq_illegal :
    decodeFamily8 w = .error (.illegal w) ↔ w.toNat % 16 ∈ [8, 9, 0xA, 0xB, 0xC, 0xD, 0xF] := by
  have hlt : w.toNat % 16 < 16 := Nat.mod_lt _ (by decide)
  rw [decodeFamily8, fieldN_toNat]
  generalize w.toNat % 16 = n at hlt ⊢
  interval_cases n <;> simp

theorem decodeFamilyE_eq_illegal :
    decodeFamilyE w = .error (.illegal w) ↔ w.toNat % 256 ∉ [0x9E, 0xA1] := by
  rw [← fieldNn_toNat]
  unfold decodeFamilyE
  split <;> simp_all

theorem decodeFamilyF_eq_illegal :
    decodeFamilyF w = .error (.illegal w) ↔
      w.toNat % 256 ∉ [0x07, 0x0A, 0x15, 0x18, 0x1E, 0x29, 0x33, 0x55, 0x65] := by
  rw [← fieldNn_toNat]
  unfold decodeFamilyF
  split <;> simp_all

end Sys2Proof

namespace Sys2Proof.Machine

/-- Settles O2, by the format of the instruction: the decoder reads back the fields the encoder wrote. -/
theorem decodeAfterEncode : Obligations.DecodeAfterEncode :=
  fun _ h => decodeWord_encode h

/-- Settles O3, by the arms of the decoder: the word is put together again from the fields it read. -/
theorem encodeAfterDecode : Obligations.EncodeAfterDecode := by
  refine ⟨fun w i h => decodeWord_eq_ok_iff.mp h, fun w w' i h h' => ?_⟩
  exact (decodeWord_eq_ok_iff.mp h).1.symm.trans (decodeWord_eq_ok_iff.mp h').1

/-- Settles O5, by the sixteen families. -/
theorem illegalWordsAreExactly : Obligations.IllegalWordsAreExactly := by
  intro w
  have hlt : w.toNat / 4096 < 16 := by omega
  rw [decodeWord, fieldN1_toNat]
  generalize w.toNat / 4096 = k at hlt ⊢
  interval_cases k <;>
    simp [decodeFamily0_eq_illegal, decodeXY0_eq_illegal, decodeFamily8_eq_illegal,
      decodeFamilyE_eq_illegal, decodeFamilyF_eq_illegal]

/-! ### The opcode map -/

variable {w : Word} {op : Nibble}

@[simp] theorem mapX_eq_fieldX (w : Word) : mapX w = fieldX w := Fin.ext (fieldX_val w).symm

@[simp] theorem mapY_eq_fieldY (w : Word) : mapY w = fieldY w := Fin.ext (fieldY_val w).symm

@[simp] theorem mapN_eq_fieldN (w : Word) : mapN w = fieldN w := by
  rw [mapN, ← fieldN_toNat, BitVec.ofNat_toNat, BitVec.setWidth_eq]

@[simp] theorem mapNn_eq_fieldNn (w : Word) : mapNn w = fieldNn w := by
  rw [mapNn, ← fieldNn_toNat, BitVec.ofNat_toNat, BitVec.setWidth_eq]

@[simp] theorem mapNnn_eq_fieldNnn (w : Word) : mapNnn w = fieldNnn w := by
  rw [mapNnn, ← fieldNnn_toNat, BitVec.ofNat_toNat, BitVec.setWidth_eq]

/-- What a row with mask F000 tests. -/
theorem fieldN1_of_and_family (h : w &&& 0xF000 = encodeNnn op 0) : fieldN1 w = op := by
  rw [← encodeNnn_of_fields (w := w) rfl, Laws.encodeNnn_and_family] at h
  simpa using congrArg fieldN1 (show encodeNnn (fieldN1 w) 0 = encodeNnn op 0 from h)

/-- What a row with mask F00F tests. -/
theorem fields_of_and_sub {n : Nibble} (h : w &&& 0xF00F = encodeXyn op 0 0 n) :
    fieldN1 w = op ∧ fieldN w = n := by
  rw [← encodeXyn_of_fields (w := w) rfl rfl, Laws.encodeXyn_and_sub] at h
  have he : encodeXyn (fieldN1 w) 0 0 (fieldN w) = encodeXyn op 0 0 n := h
  exact ⟨by simpa using congrArg fieldN1 he, by simpa using congrArg fieldN he⟩

/-- What a row with mask F0FF tests. -/
theorem fields_of_and_low {nn : Byte} (h : w &&& 0xF0FF = encodeXnn op 0 nn) :
    fieldN1 w = op ∧ fieldNn w = nn := by
  rw [← encodeXnn_of_fields (w := w) rfl rfl, Laws.encodeXnn_and_low] at h
  have he : encodeXnn (fieldN1 w) 0 (fieldNn w) = encodeXnn op 0 nn := h
  exact ⟨by simpa using congrArg fieldN1 he, by simpa using congrArg fieldNn he⟩

/-- The word `w` obeys a row of the map: if it selects the row, it decodes to the row's instruction. -/
def ObeysRow (w : Word) (r : Word × Word × Instr) : Prop := w &&& r.1 = r.2.1 → decodeWord w = .ok r.2.2

section Rows

variable {i : Instr} {m : Word}

/-- A row without fields, whose mask tests the whole word. -/
theorem obeysRow_whole (hm : encode i = m) (hwf : WellFormed i = true) : ObeysRow w (0xFFFF, m, i) := by
  intro h
  have hw : w &&& 0xFFFF = w := BitVec.and_allOnes
  exact decodeWord_eq_ok_iff.mpr ⟨hm.trans (h.symm.trans hw), hwf⟩

/-- A row whose mask tests the family alone. -/
theorem obeysRow_family (hi : fieldN1 w = op → encode i = w) (hm : encodeNnn op 0 = m)
    (hwf : WellFormed i = true) : ObeysRow w (0xF000, m, i) :=
  fun h => decodeWord_eq_ok_iff.mpr ⟨hi (fieldN1_of_and_family (h.trans hm.symm)), hwf⟩

/-- A row whose mask tests the family and `n4`. -/
theorem obeysRow_sub {n : Nibble} (hi : fieldN1 w = op → fieldN w = n → encode i = w)
    (hm : encodeXyn op 0 0 n = m) (hwf : WellFormed i = true) : ObeysRow w (0xF00F, m, i) := by
  intro h
  obtain ⟨hop, hn⟩ := fields_of_and_sub (h.trans hm.symm)
  exact decodeWord_eq_ok_iff.mpr ⟨hi hop hn, hwf⟩

/-- A row whose mask tests the family and the low byte. -/
theorem obeysRow_low {nn : Byte} (hi : fieldN1 w = op → fieldNn w = nn → encode i = w)
    (hm : encodeXnn op 0 nn = m) (hwf : WellFormed i = true) : ObeysRow w (0xF0FF, m, i) := by
  intro h
  obtain ⟨hop, hnn⟩ := fields_of_and_low (h.trans hm.symm)
  exact decodeWord_eq_ok_iff.mpr ⟨hi hop hnn, hwf⟩

end Rows

theorem opcodeMapLow_obeyed (w : Word) : ∀ r ∈ opcodeMapLow w, ObeysRow w r := by
  simp only [opcodeMapLow, List.forall_mem_cons, mapX_eq_fieldX, mapY_eq_fieldY, mapNn_eq_fieldNn,
    mapNnn_eq_fieldNnn]
  exact ⟨obeysRow_whole rfl rfl, obeysRow_whole rfl rfl,
    obeysRow_family encodeNnn_of_fields rfl rfl, obeysRow_family encodeNnn_of_fields rfl rfl,
    obeysRow_family (encodeXnn_of_fields · rfl) rfl rfl, obeysRow_family (encodeXnn_of_fields · rfl) rfl rfl,
    obeysRow_sub encodeXyn_of_fields rfl rfl,
    obeysRow_family (encodeXnn_of_fields · rfl) rfl rfl, obeysRow_family (encodeXnn_of_fields · rfl) rfl rfl,
    List.forall_mem_nil _⟩

theorem opcodeMapMid_obeyed (w : Word) : ∀ r ∈ opcodeMapMid w, ObeysRow w r := by
  simp only [opcodeMapMid, List.forall_mem_cons, mapX_eq_fieldX, mapY_eq_fieldY, mapN_eq_fieldN,
    mapNn_eq_fieldNn, mapNnn_eq_fieldNnn]
  exact ⟨obeysRow_sub encodeXyn_of_fields rfl rfl, obeysRow_sub encodeXyn_of_fields rfl rfl,
    obeysRow_sub encodeXyn_of_fields rfl rfl, obeysRow_sub encodeXyn_of_fields rfl rfl,
    obeysRow_sub encodeXyn_of_fields rfl rfl, obeysRow_sub encodeXyn_of_fields rfl rfl,
    obeysRow_sub encodeXyn_of_fields rfl rfl, obeysRow_sub encodeXyn_of_fields rfl rfl,
    obeysRow_sub encodeXyn_of_fields rfl rfl, obeysRow_sub encodeXyn_of_fields rfl rfl,
    obeysRow_family encodeNnn_of_fields rfl rfl,
    obeysRow_family encodeNnn_of_fields rfl (beq_iff_eq.mpr (fieldX_val_eq_fieldNnn w)),
    obeysRow_family (encodeXnn_of_fields · rfl) rfl rfl, obeysRow_family (encodeXyn_of_fields · rfl) rfl rfl,
    List.forall_mem_nil _⟩

theorem opcodeMapHigh_obeyed (w : Word) : ∀ r ∈ opcodeMapHigh w, ObeysRow w r := by
  simp only [opcodeMapHigh, List.forall_mem_cons, List.not_mem_nil, false_implies, implies_true, and_true,
    mapX_eq_fieldX]
  and_intros <;> exact obeysRow_low encodeXnn_of_fields rfl rfl

theorem opcodeMap_obeyed (w : Word) : ∀ r ∈ opcodeMap w, ObeysRow w r := by
  simp only [opcodeMap, List.forall_mem_append]
  exact ⟨⟨opcodeMapLow_obeyed w, opcodeMapMid_obeyed w⟩, opcodeMapHigh_obeyed w⟩

/-- The word of an instruction selects the instruction's row. -/
theorem encode_selectsRow (i : Instr) : Laws.SelectsRow.Statement i := by
  cases i with
  | cls | ret => rfl
  | jp nnn | call nnn | ldI nnn | jpVx _ nnn => exact Laws.encodeNnn_and_family _ nnn
  | seImm x nn | sneImm x nn | ldImm x nn | addImm x nn | rnd x nn => exact Laws.encodeXnn_and_family _ x nn
  | drw x y n => exact Laws.encodeXyn_and_family _ x y n
  | seReg x y | sneReg x y | ldReg x y | orReg x y | andReg x y | xorReg x y | addReg x y | sub x y
  | shr x y | subn x y | shl x y => exact Laws.encodeXyn_and_sub _ x y _
  | skp x | sknp x | ldVxDt x | ldVxK x | ldDtVx x | ldStVx x | addI x | ldF x | ldB x | stRegs x
  | ldRegs x => exact Laws.encodeXnn_and_low _ x _

/-- The row of a well-formed instruction stands in the map of its word, with the instruction itself. -/
theorem row_mem_opcodeMap {i : Instr} (h : WellFormed i = true) :
    (Laws.rowMask i, Laws.rowMatch i, i) ∈ opcodeMap (encode i) := by
  cases i with
  | jpVx x nnn =>
    have hx : x.val = nnn.toNat / 256 := beq_iff_eq.mp h
    simp [opcodeMap, opcodeMapLow, opcodeMapMid, opcodeMapHigh, Laws.rowMask, Laws.rowMatch, encode,
      fieldX_encodeNnn _ hx]
  | _ =>
    simp [opcodeMap, opcodeMapLow, opcodeMapMid, opcodeMapHigh, Laws.rowMask, Laws.rowMatch, encode]

/-- Two rows of the map differ in a bit that both masks test, whatever the word. -/
theorem opcodeMap_pairwise_differ (w : Word) :
    (opcodeMap w).Pairwise fun r q => r.2.1 &&& q.1 ≠ q.2.1 &&& r.1 := by
  have hrows : ((opcodeMap 0).map fun r => (r.1, r.2.1)).Pairwise
      fun r q => r.2 &&& q.1 ≠ q.2 &&& r.1 := by decide
  have hmap : (opcodeMap w).map (fun r => (r.1, r.2.1)) = (opcodeMap 0).map fun r => (r.1, r.2.1) := rfl
  rw [← hmap, List.pairwise_map] at hrows
  exact hrows

theorem and_eq_of_selects_both {m v m' v' : Word} (h : w &&& m = v) (h' : w &&& m' = v') :
    v &&& m' = v' &&& m := by
  rw [← h, ← h', BitVec.and_assoc, BitVec.and_assoc, BitVec.and_comm m]

/-- Settles O4: a row's mask and match determine the fields from which its instruction's word is put together
again; what decodes stands in its own row; and two rows differ in a bit that both test. -/
theorem decodeFollowsTheMap : Obligations.DecodeFollowsTheMap := by
  refine fun w => ⟨opcodeMap_obeyed w, fun hnone => ?_, ?_⟩
  · cases hd : decodeWord w with
    | error e => rw [decodeWord_eq_error hd]
    | ok i =>
      obtain ⟨rfl, hwf⟩ := decodeWord_eq_ok_iff.mp hd
      exact absurd (encode_selectsRow i) (hnone _ (row_mem_opcodeMap hwf))
  · exact (opcodeMap_pairwise_differ w).imp fun hdiffer ⟨hr, hq⟩ =>
      hdiffer (and_eq_of_selects_both hr hq)

/-! ### The step -/

theorem cycle_ne_refused (s : State) (r : Refusal) : cycle s ≠ .refused r := by
  intro h
  rcases cycle_cases s with ⟨-, hc⟩ | ⟨w, e, -, -, hc⟩ | ⟨w, i, -, -, hc⟩
  · cases hc.symm.trans h
  · cases hc.symm.trans h
  · rcases exec_completesOrRaises i (advancePc s) with ⟨t, he⟩ | ⟨fault, info, -, he⟩
    · cases (hc.trans he).symm.trans h
    · cases (hc.trans he).symm.trans h

theorem mapResult_eq_refused {f : State → State} {r : Result} {q : Refusal} :
    mapResult f r = .refused q ↔ r = .refused q := by
  cases r <;> simp [mapResult]

/-- Settles O13, by the cases of a cycle: its two own faults, and an instruction that completes or raises. -/
theorem stepIsNeverRefused : Obligations.StepIsNeverRefused :=
  fun s r h => cycle_ne_refused s r (mapResult_eq_refused.mp h)

/-- Settles O6: the fetch answers the word of the two bytes. -/
theorem stepRunsDecodedInstruction : Obligations.StepRunsDecodedInstruction :=
  fun _ _ hpc hd => congrArg (mapResult drawInputs) (cycle_eq_exec (fetch_ok hpc) hd)

/-- Settles O1, by running the decoder on the twenty words. -/
theorem specWordsDecode : Obligations.SpecWordsDecode := by
  unfold Obligations.SpecWordsDecode
  decide

end Sys2Proof.Machine

/-! Control flow (spec/40_control_flow.md): return and call, the two jumps and the four register skips. -/

namespace Sys2Proof.Machine

variable {s : State}

/-! ### Instructions that write `pc` alone -/

theorem setPc_onlyPcChanges (s : State) (a : Word) : OnlyPcChanges s (setPc s a) :=
  ⟨readReg_setPc s a, fun _ => rfl, rfl, ⟨rfl, rfl, rfl⟩, rfl, ⟨rfl, rfl, rfl⟩⟩

/-- Settles O20: the target is `nnn` extended to 16 bits. -/
theorem jumpLoadsPc : Obligations.JumpLoadsPc :=
  fun nnn s => ⟨encodeNnn_toNat 0x1 nnn, _, rfl, target_toNat nnn, setPc_onlyPcChanges s _⟩

/-- Settles O24: the sum of a 12-bit and an 8-bit number has no carry out of 16 bits, and a `Bxnn` that decodes
is well formed, so that its register is the top nibble of its `nnn`. -/
theorem jumpWithOffsetAdds : Obligations.JumpWithOffsetAdds := by
  refine ⟨fun x nnn s => ⟨encodeNnn_toNat 0xB nnn, _, rfl, offsetTarget_toNat nnn _, setPc_onlyPcChanges s _⟩,
    fun w x nnn hd => ?_⟩
  obtain ⟨rfl, hwf⟩ := decodeWord_eq_ok_iff.mp hd
  have hx : x.val = nnn.toNat / 256 := beq_iff_eq.mp hwf
  have hw : (encode (.jpVx x nnn)).toNat = 0xB000 + nnn.toNat := encodeNnn_toNat 0xB nnn
  omega

/-! ### Skips -/

/-- An instruction that ends in a skip completes, and `p` decides alone whether `pc` gets two bytes more. -/
theorem completes_of_eq_skipIf {r : Result} {c : Bool} {p : Prop} [Decidable p]
    (hr : r = .next (skipIf c s)) (hc : c = true ↔ p) :
    ∃ t, r = .next t ∧ OnlyPcChanges s t ∧ t.pc = if p then s.pc + 2 else s.pc := by
  rw [skipIf_eq] at hr
  exact ⟨_, hr, setPc_onlyPcChanges s _, if_congr hc rfl rfl⟩

/-- `completes_of_eq_skipIf` for the two instructions that skip when their operands differ. -/
theorem completes_of_eq_skipIf_not {r : Result} {c : Bool} {p : Prop} [Decidable p]
    (hr : r = .next (skipIf c s)) (hc : c = true ↔ ¬ p) :
    ∃ t, r = .next t ∧ OnlyPcChanges s t ∧ t.pc = if p then s.pc else s.pc + 2 := by
  simpa only [ite_not] using completes_of_eq_skipIf hr hc

/-- Settles O23: the four are one skip under four conditions. -/
theorem compareSkips : Obligations.CompareSkips :=
  ⟨fun x nn _ => ⟨encodeXnn_toNat 0x3 x nn, completes_of_eq_skipIf rfl beq_iff_eq⟩,
    fun x nn _ => ⟨encodeXnn_toNat 0x4 x nn, completes_of_eq_skipIf_not rfl bne_iff_ne⟩,
    fun x y _ => ⟨encodeXyn_toNat 0x5 x y 0, completes_of_eq_skipIf rfl beq_iff_eq⟩,
    fun x y _ => ⟨encodeXyn_toNat 0x9 x y 0, completes_of_eq_skipIf_not rfl bne_iff_ne⟩⟩

/-! ### Call and return -/

theorem execRet_of_stack_cons {r : Word} {rest : List Word} (h : s.stack = r :: rest) :
    execRet s = .next (setPc (setStack s rest) r) := by
  rcases execRet_cases s with ⟨hnil, -⟩ | ⟨r', rest', hs, he⟩
  · cases hnil.symm.trans h
  · cases hs.symm.trans h
    exact he

theorem execRet_of_stack_nil (h : s.stack = []) : execRet s = raise .stackUnderflow .ret 0 s := by
  rcases execRet_cases s with ⟨-, he⟩ | ⟨r, rest, hs, -⟩
  · exact he
  · cases hs.symm.trans h

theorem execCall_of_room (nnn : Addr) (h : sp s < Config.stackDepth) :
    execCall nnn s = .next (setPc (setStack s (s.pc :: s.stack)) (target nnn)) :=
  (execCall_cases nnn s).elim (fun ⟨hfull, _⟩ => absurd h (not_lt.mpr hfull)) fun ⟨_, he⟩ => he

theorem execCall_of_full (nnn : Addr) (h : Config.stackDepth ≤ sp s) :
    execCall nnn s = raise .stackOverflow (.call nnn) 0 s :=
  (execCall_cases nnn s).elim (fun ⟨_, he⟩ => he) fun ⟨hroom, _⟩ => absurd hroom (not_lt.mpr h)

/-- Settles O19, by whether the stack holds an entry to pop. -/
theorem returnPopsOrUnderflows : Obligations.ReturnPopsOrUnderflows :=
  ⟨rfl, fun _ _ _ h => execRet_of_stack_cons h, fun _ h => execRet_of_stack_nil h⟩

/-- Settles O21, by whether the stack has room for the return address. -/
theorem callPushesOrOverflows : Obligations.CallPushesOrOverflows := by
  refine fun nnn s => ⟨encodeNnn_toNat 0x2 nnn, fun hroom => ?_, fun hfull => execCall_of_full nnn hfull⟩
  exact ⟨_, execCall_of_room nnn hroom, target_toNat nnn, rfl, fun _ => rfl, fun _ => rfl, rfl, rfl, rfl, rfl,
    ⟨rfl, rfl, rfl⟩⟩

/-- Settles O22: the return finds on top the `pc` that the call pushed, whatever `pc` is by then. -/
theorem callThenReturnComesBack : Obligations.CallThenReturnComesBack := by
  intro nnn s p hroom
  have hret := execRet_of_stack_cons (setPc_stack (setStack s (s.pc :: s.stack)) p)
  exact ⟨_, _, execCall_of_room nnn hroom, hret, rfl, rfl⟩

end Sys2Proof.Machine

/-! Load, arithmetic, logic, shift and random (spec/41_load_alu.md): the instructions that write one register, and
those that write VF after it. -/

namespace Sys2Proof.Machine

variable {s : State}

/-! ### What a register write leaves -/

theorem writeReg_onlyRegisterChanges (s : State) (x : Reg) (b : Byte) :
    OnlyRegisterChanges x s (writeReg s x b) :=
  ⟨fun _ hj => readReg_writeReg_of_ne hj.symm b, fun _ => rfl, rfl, rfl, ⟨rfl, rfl, rfl⟩, rfl, ⟨rfl, rfl, rfl⟩⟩

theorem writeRegFlag_onlyRegisterAndFlagChange (s : State) (x : Reg) (b flag : Byte) :
    OnlyRegisterAndFlagChange x s (writeRegFlag s x b flag) := by
  refine ⟨fun j hx hvf => ?_, fun _ => rfl, rfl, rfl, ⟨rfl, rfl, rfl⟩, rfl, ⟨rfl, rfl, rfl⟩⟩
  rw [readReg_writeRegFlag, if_neg hvf, if_neg hx]

theorem readReg_writeRegFlag_dest {x : Reg} (hx : x ≠ vf) (b flag : Byte) :
    readReg (writeRegFlag s x b flag) x = b := by
  rw [readReg_writeRegFlag, if_neg hx, if_pos rfl]

/-- The words of the family `8xyn`, by the number `n` that tells its instructions apart. -/
theorem encodeXyn_family8_toNat (x y : Reg) (n : Nibble) :
    (encodeXyn 0x8 x y n).toNat = 0x8000 + n.toNat + 256 * x.val + 16 * y.val := by
  have hop : (0x8 : Nibble).toNat = 8 := rfl
  rw [encodeXyn_toNat, hop]
  omega

/-! ### Loads, addition of a constant, logic and random -/

/-- Settles O27: one register write of the constant, or of the other register's old value. -/
theorem loadConstantAndCopy : Obligations.LoadConstantAndCopy :=
  ⟨fun x nn s =>
      ⟨encodeXnn_toNat 0x6 x nn, _, rfl, readReg_writeReg_same s x nn, writeReg_onlyRegisterChanges s x nn⟩,
    fun x y s =>
      ⟨encodeXyn_toNat 0x8 x y 0, _, rfl, readReg_writeReg_same s x _, writeReg_onlyRegisterChanges s x _⟩⟩

/-- Settles O28: the addition of bytes is modulo 256. -/
theorem addConstantWraps : Obligations.AddConstantWraps := by
  refine fun x nn s => ⟨encodeXnn_toNat 0x7 x nn, _, rfl, ?_, writeReg_onlyRegisterChanges s x _⟩
  rw [readReg_writeReg_same, BitVec.toNat_add]

/-- Settles O29: bit `k` of a bitwise combination is the combination of the bits `k`. -/
theorem logicIsBitwise : Obligations.LogicIsBitwise := by
  refine fun x y s =>
    ⟨⟨encodeXyn_family8_toNat x y 1, _, rfl, writeReg_onlyRegisterChanges s x _, fun k => ?_⟩,
      ⟨encodeXyn_family8_toNat x y 2, _, rfl, writeReg_onlyRegisterChanges s x _, fun k => ?_⟩,
      ⟨encodeXyn_family8_toNat x y 3, _, rfl, writeReg_onlyRegisterChanges s x _, fun k => ?_⟩⟩
  · rw [readReg_writeReg_same, BitVec.getLsbD_or]
  · rw [readReg_writeReg_same, BitVec.getLsbD_and]
  · rw [readReg_writeReg_same, BitVec.getLsbD_xor]

/-- Settles O35: a conjunction has no bit that `nn` lacks, and is at most `nn`. -/
theorem randomIsMasked : Obligations.RandomIsMasked := by
  intro x nn s
  have hread : readReg (writeReg s x (s.rnd &&& nn)) x = s.rnd &&& nn := readReg_writeReg_same s x _
  refine ⟨encodeXnn_toNat 0xC x nn, _, rfl, writeReg_onlyRegisterChanges s x _, ?_⟩
  rw [hread]
  refine ⟨fun k => BitVec.getLsbD_and, ?_, ?_, ?_⟩
  · rw [BitVec.toNat_and]
    exact Nat.and_le_right
  · rintro rfl
    exact BitVec.and_zero
  · rintro rfl
    exact Laws.byte_and_ones s.rnd

/-! ### Arithmetic and shifts, with the flag -/

/-- The subtraction of bytes is modulo 256: a borrow adds 256 (spec/41_load_alu.md R127). -/
theorem byte_sub_toNat (a b : Byte) :
    (a - b).toNat = if a.toNat ≥ b.toNat then a.toNat - b.toNat else a.toNat + 256 - b.toNat := by
  have ha := a.isLt
  have hb := b.isLt
  rw [BitVec.toNat_sub]
  split <;> omega

/-- Settles O30: the addition of bytes is modulo 256, and VF is the carry of the table of R22. -/
theorem addRegistersWithCarry : Obligations.AddRegistersWithCarry := by
  refine fun x y s => ⟨encodeXyn_family8_toNat x y 4, _, rfl, fun hx => ?_, exec_vf (i := .addReg x y) rfl,
    writeRegFlag_onlyRegisterAndFlagChange s x _ _⟩
  rw [readReg_writeRegFlag_dest hx, BitVec.toNat_add]

/-- Settles O31: the difference `Vx - Vy`. -/
theorem subtractWithNotBorrow : Obligations.SubtractWithNotBorrow := by
  refine fun x y s => ⟨encodeXyn_family8_toNat x y 5, _, rfl, fun hx => ?_, exec_vf (i := .sub x y) rfl,
    writeRegFlag_onlyRegisterAndFlagChange s x _ _⟩
  rw [readReg_writeRegFlag_dest hx, byte_sub_toNat]

/-- Settles O33: the difference `Vy - Vx`. -/
theorem reverseSubtractWithNotBorrow : Obligations.ReverseSubtractWithNotBorrow := by
  refine fun x y s => ⟨encodeXyn_family8_toNat x y 7, _, rfl, fun hx => ?_, exec_vf (i := .subn x y) rfl,
    writeRegFlag_onlyRegisterAndFlagChange s x _ _⟩
  rw [readReg_writeRegFlag_dest hx, byte_sub_toNat]

/-- Settles O32: a shift right by one divides `Vy` by 2. -/
theorem shiftRightCopiesThenShifts : Obligations.ShiftRightCopiesThenShifts := by
  refine fun x y s => ⟨encodeXyn_family8_toNat x y 6, _, rfl, fun hx => ?_, exec_vf (i := .shr x y) rfl,
    writeRegFlag_onlyRegisterAndFlagChange s x _ _⟩
  rw [readReg_writeRegFlag_dest hx, BitVec.toNat_ushiftRight, Nat.shiftRight_one]

/-- Settles O34: a shift left by one doubles `Vy` modulo 256. -/
theorem shiftLeftCopiesThenShifts : Obligations.ShiftLeftCopiesThenShifts := by
  refine fun x y s => ⟨encodeXyn_family8_toNat x y 14, _, rfl, fun hx => ?_, exec_vf (i := .shl x y) rfl,
    writeRegFlag_onlyRegisterAndFlagChange s x _ _⟩
  rw [readReg_writeRegFlag_dest hx, BitVec.toNat_shiftLeft, Nat.shiftLeft_eq, Nat.pow_one, Nat.mul_comm]

end Sys2Proof.Machine

/-! The index register and memory (spec/42_index_memory.md): the three instructions that compute `I`, and the
three that store or load at it. -/

namespace Sys2Proof.Machine

variable {s : State}

/-- The words of the format `Fxnn`, by the low byte that tells its instructions apart. -/
theorem encodeXnn_familyF_toNat (x : Reg) (nn : Byte) :
    (encodeXnn 0xF x nn).toNat = 0xF000 + nn.toNat + 256 * x.val := by
  have hop : (0xF : Nibble).toNat = 15 := rfl
  rw [encodeXnn_toNat, hop]
  omega

/-! ### Instructions that compute `I` -/

theorem setIndex_onlyIndexChanges (s : State) (a : Word) : OnlyIndexChanges s (setIndex s a) :=
  ⟨readReg_setIndex s a, fun _ => rfl, rfl, ⟨rfl, rfl, rfl⟩, rfl, ⟨rfl, rfl, rfl⟩⟩

/-- Settles O37: `nnn` extended to 16 bits. -/
theorem loadIndex : Obligations.LoadIndex :=
  fun nnn s => ⟨encodeNnn_toNat 0xA nnn, _, rfl, target_toNat nnn, setIndex_onlyIndexChanges s _⟩

theorem glyphAddress_toNat (a : Byte) : (glyphAddress a).toNat = 0x50 + 5 * (a.toNat % 16) := by
  have hlow : (a &&& 0x0F).toNat = a.toNat % 16 := by
    rw [BitVec.toNat_and]
    exact Nat.and_two_pow_sub_one_eq_mod a.toNat 4
  rw [glyphAddress, hlow, BitVec.toNat_ofNat, Config.fontBase]
  omega

/-- Settles O39: the mask 0x0F is the remainder by 16, and the largest glyph address fits in 16 bits. -/
theorem fontAddress : Obligations.FontAddress :=
  fun x s => ⟨encodeXnn_familyF_toNat x 0x29, _, rfl, glyphAddress_toNat _, setIndex_onlyIndexChanges s _⟩

/-- `Fx1E` completes with the sum in `I`, and beside `I` it can have written VF alone. -/
theorem execAddI_completes (x : Reg) (s : State) :
    ∃ t, execAddI x s = .next t ∧
      OnlyRegisterChanges vf (setIndex s (s.index + (readReg s x).setWidth 16)) t := by
  refine ⟨_, rfl, ?_⟩
  split
  next => exact writeReg_onlyRegisterChanges _ vf 1
  next => exact ⟨fun _ _ => rfl, fun _ => rfl, rfl, rfl, ⟨rfl, rfl, rfl⟩, rfl, ⟨rfl, rfl, rfl⟩⟩

/-- Settles O38: the sum in `I` is modulo 65536, and VF follows the table of R22. -/
theorem addIndexSetsNeverClears : Obligations.AddIndexSetsNeverClears := by
  intro x s
  obtain ⟨t, h, hreg, hmem, hpc, hindex, hstack, hfb, hinputs⟩ := execAddI_completes x s
  refine ⟨encodeXnn_familyF_toNat x 0x1E, t, h, ?_, execAddI_vf h, hreg, hmem, hpc, hstack, hfb, hinputs⟩
  have hwide : ((readReg s x).setWidth 16).toNat = (readReg s x).toNat :=
    BitVec.toNat_setWidth_of_le (by decide)
  rw [hindex, setIndex_index, BitVec.toNat_add, hwide]

/-! ### The whole-range test -/

section RangeTest

variable {r : Result} {i : Instr} {base k : Nat} {u : State}
  (hcases : (∃ a, rangeFault base k = some a ∧ r = raise .addressError i a s) ∨
    (rangeFault base k = none ∧ r = .next u))

include hcases

/-- An instruction with data at `I` completes when the whole range exists; the premise is how it ends, as
`execLdB_cases` and its like say it. -/
theorem eq_next_of_inRange (h : base + k ≤ 4096) : r = .next u :=
  (eq_next_iff_inRange hcases).mpr ⟨rangeFault_none.mpr (.inr h), rfl⟩

/-- Where a byte of the range does not exist it faults at the lowest such address, and the state left is the
one execute began with (spec/60_exceptions.md R205, R207). -/
theorem eq_addressError_of_outOfRange (hk : k ≠ 0) (h : 4096 < base + k) :
    r = .fault (.addressError ⟨s.pc - 2, encode i, max base 4096, s⟩) := by
  have hrange : rangeFault base k = some (max base 4096) := rangeFault_some.mpr ⟨hk, h, rfl⟩
  rcases hcases with ⟨a, ha, hr⟩ | ⟨hnone, -⟩
  · cases hrange.symm.trans ha
    exact hr
  · cases hrange.symm.trans hnone

end RangeTest

/-! ### Stores and loads at `I` -/

section Store

variable {l : List Byte} (hwf : Memory.wf s.mem = true) (hlen : indexBase s + l.length ≤ 4096)

include hwf hlen

/-- The byte `j` of a list stored at `I`. -/
theorem memRead_store_at {j : Nat} (hj : j < l.length) :
    memRead (memWriteList s.mem (indexBase s) l) (s.index.toNat + j) = l.getD j 0 := by
  rw [memRead_store hwf hlen, byteAfter, if_pos (by omega), Nat.add_sub_cancel_left]

theorem store_onlyBytesChange :
    OnlyBytesChange s.index.toNat l.length s (setMem s (memWriteList s.mem (indexBase s) l)) := by
  refine ⟨fun c hc => ?_, readReg_setMem s _, rfl, rfl, ⟨rfl, rfl, rfl⟩, rfl, ⟨rfl, rfl, rfl⟩⟩
  rw [setMem_mem, memRead_store hwf hlen, byteAfter, if_neg (by omega)]

end Store

/-- Settles O40, by whether the three bytes exist: the digits are the quotients and remainders of the byte. -/
theorem decimalDigitsAreStored : Obligations.DecimalDigitsAreStored := by
  refine fun x s => ⟨encodeXnn_familyF_toNat x 0x33, fun hin hwf => ?_, fun hout => ?_⟩
  · have hlen : indexBase s + (decimalDigits (readReg s x)).length ≤ 4096 := Nat.succ_le_succ hin
    have hdigit {j : Nat} (hj : j < 3) := memRead_store_at hwf hlen hj
    refine ⟨_, eq_next_of_inRange (execLdB_cases x s) hlen, store_onlyBytesChange hwf hlen, ?_, ?_, ?_⟩
    · exact (congrArg BitVec.toNat (hdigit (j := 0) (by decide))).trans BitVec.toNat_udiv
    · refine (congrArg BitVec.toNat (hdigit (j := 1) (by decide))).trans (BitVec.toNat_umod.trans ?_)
      rw [BitVec.toNat_udiv]
      rfl
    · exact (congrArg BitVec.toNat (hdigit (j := 2) (by decide))).trans BitVec.toNat_umod
  · exact eq_addressError_of_outOfRange (execLdB_cases x s) (by decide) (Nat.succ_lt_succ hout)

/-- Settles O41, by whether the bytes for `V[0]` to `V[x]` exist. -/
theorem registersAreStored : Obligations.RegistersAreStored := by
  refine fun x s => ⟨encodeXnn_familyF_toNat x 0x55, fun hin hwf => ?_, fun hout => ?_⟩
  · have hlen : indexBase s + (readRegsTo s x).length ≤ 4096 := by
      rw [readRegsTo_length]
      exact Nat.succ_le_succ hin
    refine ⟨_, eq_next_of_inRange (execStRegs_cases x s) (Nat.succ_le_succ hin), ?_, fun j hj => ?_⟩
    · have hframe := store_onlyBytesChange hwf hlen
      rwa [readRegsTo_length] at hframe
    · rw [setMem_mem, memRead_store_at hwf hlen, readRegsTo_getD s hj]
      rw [readRegsTo_length]
      exact Nat.lt_succ_of_le hj
  · exact eq_addressError_of_outOfRange (execStRegs_cases x s) (Nat.succ_ne_zero _) (Nat.succ_lt_succ hout)

/-- A load writes registers alone: `V[0]` to `V[k - 1]` receive the `k` bytes from address `a` up. -/
theorem readReg_load (s : State) (m : Memory) (a k : Nat) (j : Reg) :
    readReg (writeRegsFrom s 0 (memReadList m a k)) j =
      if j.val < k then memRead m (a + j.val) else readReg s j := by
  rw [readReg_writeRegsFrom, memReadList_length, Nat.zero_add, Nat.sub_zero]
  by_cases hj : j.val < k
  · rw [if_pos ⟨Nat.zero_le _, hj⟩, if_pos hj, memReadList_getD m a hj]
  · rw [if_neg fun h => hj h.2, if_neg hj]

theorem writeRegsFrom_onlyRegistersChange (s : State) (k : Nat) (bs : List Byte) :
    OnlyRegistersChange s (writeRegsFrom s k bs) := by
  rw [writeRegsFrom_eq]
  exact ⟨fun _ => rfl, rfl, rfl, ⟨rfl, rfl, rfl⟩, rfl, ⟨rfl, rfl, rfl⟩⟩

/-- Settles O42, by whether the bytes for `V[0]` to `V[x]` exist. -/
theorem registersAreLoaded : Obligations.RegistersAreLoaded := by
  refine fun x s => ⟨encodeXnn_familyF_toNat x 0x65, fun hin => ?_, fun hout => ?_⟩
  · refine ⟨_, eq_next_of_inRange (execLdRegs_cases x s) (Nat.succ_le_succ hin),
      writeRegsFrom_onlyRegistersChange s 0 _, fun j => ?_⟩
    exact (readReg_load s s.mem (indexBase s) (x.val + 1) j).trans (if_congr Nat.lt_succ_iff rfl rfl)
  · exact eq_addressError_of_outOfRange (execLdRegs_cases x s) (Nat.succ_ne_zero _) (Nat.succ_lt_succ hout)

/-- Settles O43: the store leaves `I` as it was, so that the load reads the bytes just stored. -/
theorem storeThenLoadGivesRegistersBack : Obligations.StoreThenLoadGivesRegistersBack := by
  intro x s hin hwf
  obtain ⟨-, hstore, -⟩ := registersAreStored x s
  obtain ⟨t, ht, ⟨-, -, -, hindex, -⟩, hmem⟩ := hstore hin hwf
  obtain ⟨-, hload, -⟩ := registersAreLoaded x { t with v := Vector.replicate 16 0 }
  obtain ⟨u, hu, -, hregs⟩ := hload (hindex ▸ hin)
  refine ⟨t, u, ht, hu, fun j => ?_⟩
  rw [hregs j, hindex]
  split
  next hj => exact hmem j hj
  next => simp [readReg]

end Sys2Proof.Machine

/-! The display (spec/43_display.md): clearing the grid, and the draw as an exclusive or with the sprite's mask. -/

namespace Sys2Proof.Machine

variable {s t : State}

/-- Settles O45: the grid written does not depend on the state, so that a second `00E0` writes the same one. -/
theorem clearScreen : Obligations.ClearScreen :=
  ⟨rfl, fun s => ⟨setFb s clearFrame, rfl, pixel_clear, rfl, readReg_setFb s _, fun _ => rfl, rfl, rfl,
    ⟨rfl, rfl, rfl⟩, ⟨rfl, rfl, rfl⟩⟩⟩

/-! ### The sprite's mask -/

/-- The mask of the statements is what `drawRows` hits: row and column of a pixel's sprite bit are its
distances from the start coordinates. -/
theorem spriteMask_eq_spriteHits (s : State) (x y : Reg) (n : Nibble) (px py : Nat) :
    spriteMask s x y n px py =
      spriteHits ((readReg s x).toNat % 64) ((readReg s y).toNat % 32)
        (memReadList s.mem (indexBase s) n.toNat) px py := by
  rw [Bool.eq_iff_iff]
  simp only [spriteMask, spriteHits, List.any_eq_true, List.mem_range, Bool.and_eq_true,
    decide_eq_true_eq, memReadList_length]
  constructor
  · rintro ⟨r, hr, c, hc, ⟨rfl, rfl⟩, hbit⟩
    refine ⟨by omega, ?_⟩
    rwa [Nat.add_sub_cancel_left, Nat.add_sub_cancel_left, memReadList_getD _ _ hr]
  · rintro ⟨⟨hx, hx', hy, hy'⟩, hbit⟩
    rw [memReadList_getD _ _ (by omega)] at hbit
    exact ⟨_, by omega, _, by omega, ⟨(Nat.add_sub_cancel' hy).symm, (Nat.add_sub_cancel' hx).symm⟩, hbit⟩

/-- The mask depends on the coordinate registers, `I` and the bytes of memory alone. -/
theorem spriteMask_congr {x y : Reg} (hx : readReg t x = readReg s x) (hy : readReg t y = readReg s y)
    (hindex : t.index = s.index) (hmem : t.mem = s.mem) (n : Nibble) :
    spriteMask t x y n = spriteMask s x y n := by
  funext px py
  rw [spriteMask, hx, hy, hindex, hmem, spriteMask]

/-! ### What a draw does -/

theorem pixel_drawing (x y : Reg) (n : Nibble) (s : State) {px py : Nat} (hx : px < 64) (hy : py < 32) :
    pixel (drawing x y n s).fb px py = (pixel s.fb px py ^^ spriteMask s x y n px py) := by
  rw [spriteMask_eq_spriteHits]
  exact (drawRows_spec _ _ _ _).1 px py hx hy

theorem collides_iff_unsets {x y : Reg} {n : Nibble} :
    Collides s x y n ↔
      ∃ px py, pixel s.fb px py = true ∧ pixel (drawing x y n s).fb px py = false := by
  rw [← drawing_collision, drawing, (drawRows_spec _ _ _ _).2]
  simp only [Collides, spriteMask_eq_spriteHits, Bool.false_eq_true, false_or]

/-- Settles O46, by whether the `n` bytes exist: the pixels are those of `pixel_drawing`, and VF follows the
table of R22, a pixel being unset exactly when the mask hits a set one. -/
theorem drawXorsTheMask : Obligations.DrawXorsTheMask := by
  refine fun x y n s => ⟨encodeXyn_toNat 0xD x y n, fun hin => ?_, fun hn hout => ?_⟩
  · have hrange : rangeFault (indexBase s) n.toNat = none := by
      refine rangeFault_none.mpr (hin.imp (congrArg BitVec.toNat) fun h => ?_)
      exact Nat.le_add_of_sub_le h
    have h := (eq_next_iff_inRange (execDrw_cases x y n s)).mpr ⟨hrange, rfl⟩
    obtain ⟨hreg, hmem, hpc, hindex, hstack, -, hinputs⟩ := writeReg_onlyRegisterChanges
      (setFb s (drawing x y n s).fb) vf (flagByte (drawing x y n s).collision)
    refine ⟨_, h, fun px py => pixel_drawing x y n s, ?_, hreg, hmem, hpc, hindex, hstack, hinputs⟩
    rw [collides_iff_unsets]
    exact (execDrw_vf h).imp And.symm And.symm
  · refine eq_addressError_of_outOfRange (execDrw_cases x y n s) (Nat.ne_of_gt hn) ?_
    exact Nat.add_lt_of_lt_sub hout

/-- Settles O47: the first draw leaves the mask as it was, and a second exclusive or with it undoes the
first, so that a pixel the first draw set is one the second unsets. -/
theorem drawTwiceRestores : Obligations.DrawTwiceRestores := by
  intro x y n s t h hx hy
  obtain ⟨hrange, ht⟩ := (eq_next_iff_inRange (execDrw_cases x y n s)).mp h
  have hfb : t.fb = (drawing x y n s).fb := by rw [ht, writeReg_fb, setFb_fb]
  have hindex : t.index = s.index := by rw [ht, writeReg_index, setFb_index]
  have hmem : t.mem = s.mem := by rw [ht, writeReg_mem, setFb_mem]
  have hmask : spriteMask t x y n = spriteMask s x y n := spriteMask_congr hx hy hindex hmem n
  have hrestore : (drawing x y n t).fb = s.fb := frame_ext fun px py hpx hpy => by
    rw [pixel_drawing x y n t hpx hpy, hmask, hfb, pixel_drawing x y n s hpx hpy, Bool.xor_assoc,
      Bool.xor_self, Bool.xor_false]
  have hrange' : rangeFault (indexBase t) n.toNat = none := by rwa [indexBase, hindex]
  have hu := (eq_next_iff_inRange (execDrw_cases x y n t)).mpr ⟨hrange', rfl⟩
  refine ⟨_, hu, hrestore, fun ⟨px, py, hunset, hset⟩ => ?_⟩
  refine (execDrw_vf hu).elim And.left fun ⟨_, hnone⟩ => absurd ⟨px, py, hset, ?_⟩ hnone
  rwa [writeReg_fb, setFb_fb, hrestore]

end Sys2Proof.Machine

/-! The keypad and the timers (spec/44_keypad_timers.md): the two skips by a key's level, the wait for a key, and
the three instructions that copy a timer. -/

namespace Sys2Proof.Machine

variable {s : State}

/-! ### Skips by the level of a key -/

/-- The words of the format `Exnn`, by the low byte that tells its instructions apart. -/
theorem encodeXnn_familyE_toNat (x : Reg) (nn : Byte) :
    (encodeXnn 0xE x nn).toNat = 0xE000 + nn.toNat + 256 * x.val := by
  have hop : (0xE : Nibble).toNat = 14 := rfl
  rw [encodeXnn_toNat, hop]
  omega

section KeyTest

variable {r : Result} {i : Instr} {c : Bool} {k : Nat}
  (hcases : (15 < k ∧ r = raise .keyIndexError i k s) ∨ (k ≤ 15 ∧ r = .next (skipIf c s)))

include hcases

/-- A skip by a key's level skips when the key exists; the premise is how it ends, as `execSkp_cases` and
`execSknp_cases` say it. -/
theorem eq_skipIf_of_key (h : k ≤ 15) : r = .next (skipIf c s) :=
  hcases.elim (fun ⟨hlt, _⟩ => absurd h (not_le.mpr hlt)) fun ⟨_, hr⟩ => hr

/-- With no key of that number it faults and names the number, and the state left is the one execute began
with (spec/60_exceptions.md R206, R207). -/
theorem eq_keyIndexError_of_noKey (h : 15 < k) :
    r = .fault (.keyIndexError ⟨s.pc - 2, encode i, k, s⟩) :=
  hcases.elim (fun ⟨_, hr⟩ => hr) fun ⟨hle, _⟩ => absurd h (not_lt.mpr hle)

end KeyTest

/-- Settles O49, by whether the keypad has a key of the number in `V[x]`; the two are one skip under opposite
conditions. -/
theorem keySkips : Obligations.KeySkips := by
  refine fun x s => ⟨encodeXnn_familyE_toNat x 0x9E, encodeXnn_familyE_toNat x 0xA1, fun k hk => ?_,
    fun hk => ⟨eq_keyIndexError_of_noKey (execSkp_cases x s) hk,
      eq_keyIndexError_of_noKey (execSknp_cases x s) hk⟩⟩
  have hkey : (readReg s x).toNat ≤ 15 := hk.trans_le (Nat.le_of_lt_succ k.isLt)
  have hdown : keyDown s.keys (readReg s x).toNat = s.keys[k.val] := by
    rw [hk, keyDown_eq s.keys k.isLt]
  refine ⟨completes_of_eq_skipIf (eq_skipIf_of_key (execSkp_cases x s) hkey) ?_,
    completes_of_eq_skipIf_not (eq_skipIf_of_key (execSknp_cases x s) hkey) ?_⟩
  · rw [hdown]
  · rw [hdown, Bool.not_eq_true', Bool.not_eq_true]

/-! ### The wait for a key -/

/-- `lowestKey_some` over the sixteen keys themselves. -/
theorem lowestKey_eq_some_iff {keys : Keypad} {k : Fin 16} :
    lowestKey keys = some k.val ↔
      keys[k.val] = true ∧ ∀ j : Fin 16, j < k → keys[j.val] = false := by
  rw [lowestKey_some, keyDown_eq keys k.isLt]
  refine ⟨fun ⟨_, hk, hleast⟩ => ⟨hk, fun j hj => ?_⟩, fun ⟨hk, hleast⟩ => ⟨k.isLt, hk, fun j hj => ?_⟩⟩
  · exact keyDown_eq keys j.isLt ▸ hleast j hj
  · exact keyDown_eq keys (hj.trans k.isLt) ▸ hleast ⟨j, hj.trans k.isLt⟩ hj

theorem execLdVxK_of_lowestKey_none (x : Reg) (h : lowestKey s.keys = none) :
    execLdVxK x s = .next (setPc s (s.pc - 2)) := by
  rw [execLdVxK, h]

theorem execLdVxK_of_lowestKey_some (x : Reg) {k : Nat} (h : lowestKey s.keys = some k) :
    execLdVxK x s = .next (writeReg s x (BitVec.ofNat 8 k)) := by
  rw [execLdVxK, h]

/-- Going back by 2 undoes the fetch's advance, whatever `pc` is. -/
theorem setPc_advancePc_sub_two (s : State) : setPc (advancePc s) ((advancePc s).pc - 2) = s := by
  rw [advancePc_pc, BitVec.add_sub_cancel]
  rfl

/-- Settles O50, by the lowest key down: with none the cycle ends where its fetch began. -/
theorem keyWaitStoresLowestKey : Obligations.KeyWaitStoresLowestKey := by
  refine ⟨fun x s => ⟨encodeXnn_familyF_toNat x 0x0A, fun hnone => ?_, fun k hk hleast => ?_⟩,
    fun s w x hf hd hnone => ?_⟩
  · exact execLdVxK_of_lowestKey_none x (lowestKey_eq_none_iff.mpr hnone)
  · refine ⟨_, execLdVxK_of_lowestKey_some x (lowestKey_eq_some_iff.mpr ⟨hk, hleast⟩), ?_,
      writeReg_onlyRegisterChanges s x _⟩
    rw [readReg_writeReg_same]
    exact Nat.mod_eq_of_lt (k.isLt.trans (by decide))
  · calc cycle s
        = exec (.ldVxK x) (advancePc s) := cycle_eq_exec hf hd
      _ = .next (setPc (advancePc s) ((advancePc s).pc - 2)) :=
          execLdVxK_of_lowestKey_none x (lowestKey_eq_none_iff.mpr hnone)
      _ = .next s := by rw [setPc_advancePc_sub_two]

/-! ### The timers -/

/-- Settles O51: one register write of DT, and the write of one timer alone. -/
theorem timerInstructions : Obligations.TimerInstructions :=
  fun x s =>
    ⟨encodeXnn_familyF_toNat x 0x07,
      ⟨_, rfl, readReg_writeReg_same s x s.dt, writeReg_onlyRegisterChanges s x s.dt⟩,
      encodeXnn_familyF_toNat x 0x15, rfl, encodeXnn_familyF_toNat x 0x18, rfl⟩

end Sys2Proof.Machine

/-! Faults (spec/60_exceptions.md): what a cycle and an instruction raise, what a fault reports, leaves and depends
on, that none latches, and the timers' tick. -/

namespace Sys2Proof.Machine

variable {s : State} {i : Instr} {f : Fault}

/-! ### What an instruction raises -/

/-- The state `s` makes the instruction fault with `f` in execute: an empty or a full call stack (R203, R204), a
byte at `I` that does not exist (R205 (b) to (d)), a key that does not exist (R206). -/
inductive Raises (s : State) : Instr → Fault → Prop where
  | underflow : s.stack = [] → Raises s .ret (.stackUnderflow ⟨s.pc - 2, encode .ret, 0, s⟩)
  | overflow {nnn : Addr} : Config.stackDepth ≤ sp s →
      Raises s (.call nnn) (.stackOverflow ⟨s.pc - 2, encode (.call nnn), 0, s⟩)
  | address {i : Instr} : dataBytes i ≠ 0 → 4096 < indexBase s + dataBytes i →
      Raises s i (.addressError ⟨s.pc - 2, encode i, max (indexBase s) 4096, s⟩)
  | key {i : Instr} {x : Reg} : (i = .skp x ∨ i = .sknp x) → 15 < (readReg s x).toNat →
      Raises s i (.keyIndexError ⟨s.pc - 2, encode i, (readReg s x).toNat, s⟩)

/-- The four instructions with data at `I`, when their range does not end inside the memory. -/
theorem exec_of_outOfRange (hk : dataBytes i ≠ 0) (h : 4096 < indexBase s + dataBytes i) :
    exec i s = .fault (.addressError ⟨s.pc - 2, encode i, max (indexBase s) 4096, s⟩) := by
  cases i with
  | drw x y n => exact eq_addressError_of_outOfRange (execDrw_cases x y n s) hk h
  | ldB x => exact eq_addressError_of_outOfRange (execLdB_cases x s) hk h
  | stRegs x => exact eq_addressError_of_outOfRange (execStRegs_cases x s) hk h
  | ldRegs x => exact eq_addressError_of_outOfRange (execLdRegs_cases x s) hk h
  | _ => exact absurd rfl hk

theorem exec_of_raises (h : Raises s i f) : exec i s = .fault f := by
  cases h with
  | underflow hempty => exact execRet_of_stack_nil hempty
  | overflow hfull => exact execCall_of_full _ hfull
  | address hk hout => exact exec_of_outOfRange hk hout
  | key hi hk =>
    rcases hi with rfl | rfl
    · exact eq_keyIndexError_of_noKey (execSkp_cases _ s) hk
    · exact eq_keyIndexError_of_noKey (execSknp_cases _ s) hk

/-- An instruction with data at `I` faults in its whole-range test alone; the premise is how it ends, as
`execDrw_cases` and its like say it. -/
theorem raises_of_rangeTest {r : Result} {u : State}
    (hcases : (∃ a, rangeFault (indexBase s) (dataBytes i) = some a ∧ r = raise .addressError i a s) ∨
      (rangeFault (indexBase s) (dataBytes i) = none ∧ r = .next u))
    (h : r = .fault f) : Raises s i f := by
  rcases hcases with ⟨a, hrange, rfl⟩ | ⟨-, rfl⟩
  · obtain ⟨hk, hout, rfl⟩ := rangeFault_some.mp hrange
    cases h
    exact .address hk hout
  · cases h

/-- A skip by a key's level faults in its test of the number alone; the premise is how it ends. -/
theorem raises_of_keyTest {r : Result} {u : State} {x : Reg} (hi : i = .skp x ∨ i = .sknp x)
    (hcases : (15 < (readReg s x).toNat ∧ r = raise .keyIndexError i (readReg s x).toNat s) ∨
      ((readReg s x).toNat ≤ 15 ∧ r = .next u))
    (h : r = .fault f) : Raises s i f := by
  rcases hcases with ⟨hk, rfl⟩ | ⟨-, rfl⟩
  · cases h
    exact .key hi hk
  · cases h

/-- The faults of execute in full (R208): the instructions not named end in a next state, whatever the state. -/
theorem exec_eq_fault_iff : exec i s = .fault f ↔ Raises s i f := by
  refine ⟨fun h => ?_, exec_of_raises⟩
  cases i with
  | ret =>
    rcases execRet_cases s with ⟨hempty, he⟩ | ⟨_, _, -, he⟩ <;> cases he.symm.trans h
    exact .underflow hempty
  | call nnn =>
    rcases execCall_cases nnn s with ⟨hfull, he⟩ | ⟨-, he⟩ <;> cases he.symm.trans h
    exact .overflow hfull
  | drw x y n => exact raises_of_rangeTest (execDrw_cases x y n s) h
  | ldB x => exact raises_of_rangeTest (execLdB_cases x s) h
  | stRegs x => exact raises_of_rangeTest (execStRegs_cases x s) h
  | ldRegs x => exact raises_of_rangeTest (execLdRegs_cases x s) h
  | skp x => exact raises_of_keyTest (.inl rfl) (execSkp_cases x s) h
  | sknp x => exact raises_of_keyTest (.inr rfl) (execSknp_cases x s) h
  | _ => cases h

/-- A fault raised in execute reports the instruction and its address (R200). -/
theorem raises_report (h : Raises s i f) :
    (faultReport f).epc = s.pc - 2 ∧ (faultReport f).einstr = encode i := by
  cases h <;> exact ⟨rfl, rfl⟩

/-- Only four instructions have data at `I`. -/
theorem hasData_of_dataBytes_ne_zero (h : dataBytes i ≠ 0) :
    (∃ x y n, i = .drw x y n) ∨ ∃ x, i = .ldB x ∨ i = .stRegs x ∨ i = .ldRegs x := by
  cases i with
  | drw x y n => exact .inl ⟨x, y, n, rfl⟩
  | ldB x => exact .inr ⟨x, .inl rfl⟩
  | stRegs x => exact .inr ⟨x, .inr (.inl rfl)⟩
  | ldRegs x => exact .inr ⟨x, .inr (.inr rfl)⟩
  | _ => exact absurd rfl h

/-! ### What a cycle raises -/

/-- The fetch faults where one of its two bytes does not exist (R205 (a)), and changes nothing (R207). -/
theorem cycle_of_fetch_out (h : 4095 ≤ s.pc.toNat) :
    cycle s = .fault (.addressError ⟨s.pc, 0, max s.pc.toNat 4096, s⟩) := by
  simp only [cycle, fetch_error (Nat.succ_le_succ h), Config.memSize]

/-- A word that does not decode faults with the fetch's advance done (R202, R207). -/
theorem cycle_of_decode_error {w : Word} {e : DecodeReject} (hf : fetch s = .ok w)
    (hd : decodeWord w = .error e) : cycle s = .fault (.decodeError ⟨s.pc, w, w.toNat, advancePc s⟩) := by
  simp only [cycle, hf, hd]

/-- The faults of a cycle in full (R208): the fetch's, the decoder's and those of execute. -/
theorem cycle_eq_fault_iff :
    cycle s = .fault f ↔
      (4095 ≤ s.pc.toNat ∧ f = .addressError ⟨s.pc, 0, max s.pc.toNat 4096, s⟩) ∨
      (∃ w e, fetch s = .ok w ∧ decodeWord w = .error e ∧
        f = .decodeError ⟨s.pc, w, w.toNat, advancePc s⟩) ∨
      (∃ w i, fetch s = .ok w ∧ decodeWord w = .ok i ∧ Raises (advancePc s) i f) := by
  constructor
  · intro h
    rcases cycle_cases s with ⟨hout, hc⟩ | ⟨w, e, hf, hd, hc⟩ | ⟨w, i, hf, hd, hc⟩
    · cases hc.symm.trans h
      exact .inl ⟨Nat.le_of_succ_le_succ hout, rfl⟩
    · cases hc.symm.trans h
      exact .inr (.inl ⟨w, e, hf, hd, rfl⟩)
    · exact .inr (.inr ⟨w, i, hf, hd, exec_eq_fault_iff.mp (hc.symm.trans h)⟩)
  · rintro (⟨hout, rfl⟩ | ⟨w, e, hf, hd, rfl⟩ | ⟨w, i, hf, hd, hraises⟩)
    · exact cycle_of_fetch_out hout
    · exact cycle_of_decode_error hf hd
    · exact (cycle_eq_exec hf hd).trans (exec_of_raises hraises)

/-- Settles O8: the one fault of the decoder, whose report holds the advanced state. -/
theorem illegalWordFaults : Obligations.IllegalWordFaults :=
  fun _ _ hf hd => cycle_of_decode_error hf hd

/-- Settles O9: the fetch, and for the instructions with data at `I` their whole-range test. -/
theorem addressErrorCases : Obligations.AddressErrorCases := by
  refine ⟨fun s h => ?_, fun x y n s hn h => ?_, fun x s h => ?_, fun x s h => ?_⟩
  · have hinfo : (if s.pc.toNat > 4095 then s.pc.toNat else 4096) = max s.pc.toNat 4096 := by
      split <;> omega
    rw [hinfo]
    exact cycle_of_fetch_out h
  · exact exec_of_outOfRange (i := .drw x y n) (Nat.ne_of_gt hn) (Nat.add_lt_of_lt_sub h)
  · exact exec_of_outOfRange (i := .ldB x) (Nat.succ_ne_zero _) (Nat.succ_lt_succ h)
  · exact ⟨exec_of_outOfRange (i := .stRegs x) (Nat.succ_ne_zero _) (Nat.succ_lt_succ h),
      exec_of_outOfRange (i := .ldRegs x) (Nat.succ_ne_zero _) (Nat.succ_lt_succ h)⟩

/-! ### What a fault leaves and reports -/

/-- Settles O10, by whether the fetch answers a word. -/
theorem faultingStepLeaves : Obligations.FaultingStepLeaves := by
  intro s f h
  split
  next hout => exact cycle_fetch_fault_left h (fetch_error (Nat.succ_le_succ hout))
  next hin => exact cycle_fault_left h (fetch_ok (Nat.succ_lt_succ (not_le.mp hin)))

/-- Settles O11, by where the cycle faulted; in execute the address is the advanced `pc` less 2, and the word is
the one decoded, encoded again. -/
theorem faultIdentifiesInstruction : Obligations.FaultIdentifiesInstruction := by
  intro s f h
  rcases cycle_eq_fault_iff.mp h with ⟨hout, rfl⟩ | ⟨w, e, hf, -, rfl⟩ | ⟨w, i, hf, hd, hraises⟩
  · have hf := fetch_error (Nat.succ_le_succ hout)
    exact ⟨rfl, fun _ hw => (by cases hf.symm.trans hw), fun _ _ => rfl⟩
  · exact ⟨rfl, fun _ hw => Except.ok.inj (hf.symm.trans hw), fun _ ha => (by cases hf.symm.trans ha)⟩
  · obtain ⟨hepc, heinstr⟩ := raises_report hraises
    rw [hepc, heinstr, (decodeWord_eq_ok_iff.mp hd).1, advancePc_pc, BitVec.add_sub_cancel]
    exact ⟨rfl, fun _ hw => Except.ok.inj (hf.symm.trans hw), fun _ ha => (by cases hf.symm.trans ha)⟩

/-! ### What no fault depends on -/

/-- The state with the four items that no fault depends on (R208) replaced. -/
def replaceUnread (r d t : Byte) (b : FrameBuffer) (s : State) : State :=
  { s with rnd := r, dt := d, st := t, fb := b }

theorem raises_replaceUnread (r d t : Byte) (b : FrameBuffer) (h : Raises s i f) :
    Raises (replaceUnread r d t b s) i (mapFault (replaceUnread r d t b) f) := by
  cases h with
  | underflow hempty => exact .underflow hempty
  | overflow hfull => exact .overflow hfull
  | address hk hout => exact .address hk hout
  | key hi hk => exact .key hi hk

/-- With those items replaced the cycle raises the same fault, whose state left has them replaced too. -/
theorem cycle_replaceUnread (r d t : Byte) (b : FrameBuffer) (h : cycle s = .fault f) :
    cycle (replaceUnread r d t b s) = .fault (mapFault (replaceUnread r d t b) f) := by
  rw [cycle_eq_fault_iff] at h ⊢
  rcases h with ⟨hout, rfl⟩ | ⟨w, e, hf, hd, rfl⟩ | ⟨w, i, hf, hd, hraises⟩
  · exact .inl ⟨hout, rfl⟩
  · exact .inr (.inl ⟨w, e, hf, hd, rfl⟩)
  · exact .inr (.inr ⟨w, i, hf, hd, raises_replaceUnread r d t b hraises⟩)

/-- Settles O12, by where the cycle faulted and by what the instruction raised. -/
theorem faultsOfEachInstruction : Obligations.FaultsOfEachInstruction := by
  refine ⟨fun s f h => ?_, fun i s f h => ?_, fun s f r d t b h => ?_⟩
  · rcases cycle_eq_fault_iff.mp h with ⟨hout, rfl⟩ | ⟨w, e, hf, hd, rfl⟩ | ⟨w, i, hf, hd, hraises⟩
    · exact .inl ⟨_, fetch_error (Nat.succ_le_succ hout), rfl⟩
    · exact .inr (.inl ⟨w, e, hf, hd, rfl⟩)
    · exact .inr (.inr ⟨w, i, hf, hd, exec_of_raises hraises⟩)
  · cases exec_eq_fault_iff.mp h with
    | underflow => exact .inl ⟨rfl, rfl⟩
    | overflow => exact .inr (.inl ⟨_, rfl, rfl⟩)
    | address hk =>
      rcases hasData_of_dataBytes_ne_zero hk with ⟨x, y, n, hi⟩ | ⟨x, hi⟩
      · exact .inr (.inr (.inl ⟨x, y, n, hi, rfl⟩))
      · exact .inr (.inr (.inr (.inl ⟨x, hi, rfl⟩)))
    | key hi => exact .inr (.inr (.inr (.inr ⟨_, hi, rfl⟩)))
  · refine ⟨_, cycle_replaceUnread r d t b h, faultCode_mapFault _ f, ?_⟩
    rw [faultReport_mapFault]
    exact ⟨rfl, rfl, rfl⟩

/-! ### No fault latches -/

theorem perform_step_of_fault {k : Keypad} {r : Byte} (h : cycle (setInputs s k r) = .fault f) :
    perform (.step k r) s = ((faultReport f).left, .fault f) := by
  simp only [perform, h]

/-- The reply to a step whose fetch at `pc` faults (R205 (a)). -/
def RepliesFetchFault (pc : Word) (reply : Reply) : Prop :=
  ∃ q, reply = .fault (.addressError q) ∧ q.epc = pc ∧ q.einstr = 0 ∧ q.info = max pc.toNat 4096

theorem perform_step_of_fetch_out (k : Keypad) (r : Byte) (h : 4095 ≤ s.pc.toNat) :
    (perform (.step k r) s).1.pc = s.pc ∧ RepliesFetchFault s.pc (perform (.step k r) s).2 := by
  rw [perform_step_of_fault (cycle_of_fetch_out (s := setInputs s k r) h)]
  exact ⟨rfl, _, rfl, rfl, rfl, rfl⟩

/-- From a `pc` that cannot be fetched, steps and ticks keep `pc`, and every step faults in the same way. -/
theorem performAll_of_fetch_out : ∀ (ops : List HostOp) (s : State), 4095 ≤ s.pc.toNat →
    (∀ op ∈ ops, op = .tickTimers ∨ ∃ k r, op = .step k r) →
    (performAll ops s).1.pc = s.pc ∧
    ∀ p ∈ ops.zip (performAll ops s).2, ∀ k r, p.1 = .step k r → RepliesFetchFault s.pc p.2
  | [], _, _, _ => ⟨rfl, fun _ hp => (by cases hp)⟩
  | op :: ops, s, hout, hops => by
    obtain ⟨hop, hops⟩ := List.forall_mem_cons.mp hops
    have hone : (perform op s).1.pc = s.pc ∧
        ∀ k r, op = .step k r → RepliesFetchFault s.pc (perform op s).2 := by
      rcases hop with rfl | ⟨k, r, rfl⟩
      · exact ⟨rfl, fun _ _ h => (by cases h)⟩
      · obtain ⟨hpc, hreply⟩ := perform_step_of_fetch_out k r hout
        exact ⟨hpc, fun _ _ _ => hreply⟩
    obtain ⟨hpc, hreply⟩ := hone
    have hrest := performAll_of_fetch_out ops (perform op s).1 (hpc ▸ hout) hops
    rw [hpc] at hrest
    rw [performAll_cons, List.zip_cons_cons]
    exact ⟨hrest.1, List.forall_mem_cons.mpr ⟨hreply, hrest.2⟩⟩

/-- Settles O14: a step's state after a fault is the one its report holds, and the rest by induction on the
sequence. -/
theorem faultDoesNotLatch : Obligations.FaultDoesNotLatch := by
  refine ⟨fun s f k k' r r' h => ?_, fun ops s hout hops => ?_⟩
  · rw [performAll_cons, perform_step_of_fault h]
    rfl
  · obtain ⟨hpc, hreplies⟩ := performAll_of_fetch_out ops s hout hops
    exact ⟨hpc, performAll_replies_length ops s, hreplies⟩

/-! ### The timers' tick -/

theorem countDown_toNat (b : Byte) : (countDown b).toNat = b.toNat - 1 := by
  unfold countDown
  split
  next hpos => bv_omega
  next hzero => omega

/-- Settles O52: each timer counts down by itself, and the tick writes nothing else. -/
theorem tickCountsDownToZero : Obligations.TickCountsDownToZero :=
  fun s => ⟨tickTimers s, rfl, countDown_toNat s.dt, countDown_toNat s.st, fun _ => rfl, fun _ => rfl, rfl, rfl,
    rfl, rfl, rfl, rfl, rfl⟩

end Sys2Proof.Machine

/-! Reset, boot and the end of a run (spec/70_reset_and_hazards.md): what the two loads write, the launch state,
and the self-jump. -/

namespace Sys2Proof.Machine

variable {s : State}

/-! ### Copies of bytes into memory -/

section Copy

variable {a : Nat} {l : List Byte} (hwf : Memory.wf s.mem = true) (hlen : a + l.length ≤ Config.memSize)

include hwf hlen

/-- The byte `j` of a list copied to address `a`. -/
theorem memRead_copy_at {j : Nat} (hj : j < l.length) :
    memRead (memWriteList s.mem a l) (a + j) = l.getD j 0 := by
  rw [memRead_memWriteList _ hlen hwf, if_pos (by omega), Nat.add_sub_cancel_left]

theorem copy_onlyBytesChange : OnlyBytesChange a l.length s (setMem s (memWriteList s.mem a l)) := by
  refine ⟨fun c hc => ?_, readReg_setMem s _, rfl, rfl, ⟨rfl, rfl, rfl⟩, rfl, ⟨rfl, rfl, rfl⟩⟩
  rw [setMem_mem, memRead_memWriteList c hlen hwf, if_neg (by omega)]

end Copy

/-- Copies to disjoint ranges may be exchanged: no byte lies in both, so that both orders read the same, and a
canonical memory is determined by what it reads. -/
theorem memWriteList_comm {m : Memory} {a b : Nat} {vs ws : List Byte} (hwf : Memory.wf m = true)
    (hdisjoint : a + vs.length ≤ b) (hws : b + ws.length ≤ Config.memSize) :
    memWriteList (memWriteList m a vs) b ws = memWriteList (memWriteList m b ws) a vs := by
  have hvs : a + vs.length ≤ Config.memSize := by omega
  have hwfa := memWriteList_wf hvs hwf
  have hwfb := memWriteList_wf hws hwf
  refine memory_ext (memWriteList_wf hws hwfa) (memWriteList_wf hvs hwfb) fun c => ?_
  rw [memRead_memWriteList c hws hwfa, memRead_memWriteList c hvs hwf, memRead_memWriteList c hvs hwfb,
    memRead_memWriteList c hws hwf]
  by_cases hb : b ≤ c ∧ c < b + ws.length
  · have ha : ¬(a ≤ c ∧ c < a + vs.length) := by omega
    rw [if_pos hb, if_neg ha, if_pos hb]
  · rw [if_neg hb, if_neg hb]

/-! ### The loads of the glyph table and of the program -/

/-- The glyph table ends below program space. -/
theorem font_endsBelowProgram (font : Vector Byte 80) :
    Config.fontBase + font.toList.length ≤ Config.progBase := by
  rw [Vector.length_toList]
  decide

theorem font_fits (font : Vector Byte 80) : Config.fontBase + font.toList.length ≤ Config.memSize :=
  (font_endsBelowProgram font).trans (by decide)

theorem keptProgram_length (bytes : List Byte) :
    (bytes.take Config.progMax).length = min bytes.length 3584 :=
  List.length_take.trans (Nat.min_comm _ _)

theorem keptProgram_fits (bytes : List Byte) :
    Config.progBase + (bytes.take Config.progMax).length ≤ Config.memSize :=
  Nat.add_le_add_left (List.length_take_le Config.progMax bytes) Config.progBase

theorem loadFont_memory_wf (font : Vector Byte 80) (hwf : Memory.wf s.mem = true) :
    Memory.wf (loadFont font s).mem = true :=
  memWriteList_wf (font_fits font) hwf

theorem loadFont_onlyBytesChange (font : Vector Byte 80) (hwf : Memory.wf s.mem = true) :
    OnlyBytesChange 0x50 80 s (loadFont font s) := by
  have hframe := copy_onlyBytesChange hwf (font_fits font)
  rwa [Vector.length_toList] at hframe

theorem memRead_loadFont (font : Vector Byte 80) (hwf : Memory.wf s.mem = true) (j : Fin 80) :
    memRead (loadFont font s).mem (0x50 + j.val) = font[j.val] := by
  have hj : j.val < font.toList.length := Vector.length_toList.symm ▸ j.isLt
  calc memRead (loadFont font s).mem (0x50 + j.val)
    _ = font.toList.getD j.val 0 := memRead_copy_at hwf (font_fits font) hj
    _ = font[j.val] := by rw [List.getD_eq_getElem _ _ hj, Vector.getElem_toList]

theorem loadProgram_onlyBytesChange (bytes : List Byte) (hwf : Memory.wf s.mem = true) :
    OnlyBytesChange 0x200 (min bytes.length 3584) s (loadProgram bytes s) := by
  have hframe := copy_onlyBytesChange hwf (keptProgram_fits bytes)
  rwa [keptProgram_length] at hframe

theorem memRead_loadProgram (bytes : List Byte) (hwf : Memory.wf s.mem = true) {j : Nat}
    (hj : j < min bytes.length 3584) :
    memRead (loadProgram bytes s).mem (0x200 + j) = bytes.getD j 0 := by
  have hkept : j < (bytes.take Config.progMax).length := (keptProgram_length bytes).symm ▸ hj
  have hbytes : j < bytes.length := hj.trans_le (Nat.min_le_left _ _)
  calc memRead (loadProgram bytes s).mem (0x200 + j)
    _ = (bytes.take Config.progMax).getD j 0 := memRead_copy_at hwf (keptProgram_fits bytes) hkept
    _ = bytes.getD j 0 := by
      rw [List.getD_eq_getElem _ _ hkept, List.getD_eq_getElem _ _ hbytes, List.getElem_take]

/-- The two loads may be exchanged (spec/20_memory.md R62). -/
theorem loadFont_loadProgram_comm (font : Vector Byte 80) (bytes : List Byte)
    (hwf : Memory.wf s.mem = true) :
    loadFont font (loadProgram bytes s) = loadProgram bytes (loadFont font s) :=
  congrArg (setMem s) (memWriteList_comm hwf (font_endsBelowProgram font) (keptProgram_fits bytes)).symm

/-- Settles O58: the 80 bytes of the table are one copy, which fits below the memory's end. -/
theorem loadFontWritesTheTable : Obligations.LoadFontWritesTheTable :=
  fun font _ hwf => ⟨_, rfl, loadFont_onlyBytesChange font hwf, memRead_loadFont font hwf⟩

/-- Settles O59: the bytes kept are one copy, which ends at the memory's end at the latest. -/
theorem loadProgramTruncates : Obligations.LoadProgramTruncates :=
  fun bytes _ hwf => ⟨_, rfl, loadProgram_onlyBytesChange bytes hwf, fun _ hj => memRead_loadProgram bytes hwf hj⟩

/-! ### The launch state -/

/-- Settles O60: the loads write memory alone, so that everything else is as after reset, and a byte of memory is
the one its load wrote or, outside both ranges, the 0 of reset. -/
theorem launchState : Obligations.LaunchState := by
  intro font bytes s
  obtain ⟨hzero, hregs, hpc, hindex, hstack, -, hdt, hst, hfb⟩ := atReset_resetOp s
  have hreset : Memory.wf (resetOp s).mem = true := reset_memory_wf
  have hloaded := loadFont_memory_wf font hreset
  obtain ⟨houtFont, -⟩ := loadFont_onlyBytesChange font hreset
  obtain ⟨houtProgram, -⟩ := loadProgram_onlyBytesChange bytes hloaded
  refine ⟨loadProgram bytes (loadFont font (resetOp s)), rfl, ?_, fun j => ?_,
    fun _ hj => memRead_loadProgram bytes hloaded hj, fun c hc => ?_, hregs, hindex, hstack, hdt, hst, hfb, hpc⟩
  · rw [← loadFont_loadProgram_comm font bytes hreset]
    rfl
  · rw [houtProgram _ (by omega), memRead_loadFont font hreset j]
  · rw [houtProgram c (by omega), houtFont c (by omega), hzero c]

/-! ### The self-jump -/

/-- Settles O25: the jump writes `pc` alone, and its target is the `pc` before the fetch. -/
theorem selfJumpChangesNothing : Obligations.SelfJumpChangesNothing := by
  intro s nnn w hf hd hpc
  have htarget : target nnn = s.pc := BitVec.eq_of_toNat_eq ((target_toNat nnn).trans hpc.symm)
  calc cycle s
    _ = exec (.jp nnn) (advancePc s) := cycle_eq_exec hf hd
    _ = .next (setPc s (target nnn)) := rfl
    _ = .next s := by rw [htarget]; rfl

end Sys2Proof.Machine
